-- ==== Sys2Proof/Word.lean ====
section
/-! DEFINITION. The word types: every memory access of the block moves one 8-bit unsigned byte (20_memory.md R69), and a
command word is 8 bits (30_encoding.md R90). -/

namespace Sys2Proof

/-- An 8-bit unsigned sample, or an 8-bit command word; bit 0 is the least significant (00_scope.md R9). -/
abbrev Byte := BitVec 8

end Sys2Proof
end

