-- ==== Sys2Proof/Config.lean ====
section
/-! DEFINITION. What one implementation fixes (the width parameter `N`), and the one free value of the model. -/

namespace Sys2Proof

/-- The implementation parameter of 00_scope.md R5. It never changes while the machine runs; State carries it, so that a
statement about every state is a statement about every `N`. -/
structure Config where
  /-- `N`: the width in bits of WIDTH, HEIGHT, CROPW, CROPH, OWIDTH and OHEIGHT. -/
  n : Nat
deriving DecidableEq, Repr

/-- 00_scope.md R5: the model takes `N >= 4`. -/
abbrev Config.wf (c : Config) : Prop := 4 ≤ c.n

/-- The reference value of 00_scope.md R5, the one every vector of 95_test_vectors.md is stated for. -/
def Config.reference : Config where
  n := 16

/-- FREE VALUE (notes/assumptions/1.md). The byte the `k`-th draw of a run gives. A draw stands for a byte that the spec
leaves unspecified: one nothing has written since reset (10_state.md R40), or one read at or beyond an output's length
register (20_memory.md R64). It has no body: nothing can be proved of its value. -/
opaque Config.freeByte : Nat → Byte

end Sys2Proof
end

