-- ==== Sys2Proof/Syntax.lean ====
section
/-! DEFINITION. The command set: one constructor per row of spec/opcode_table.json (30_encoding.md R91). -/

namespace Sys2Proof

/-- The three commands. None has an immediate and none names a register in its word: every operand is implicit
(30_encoding.md R92). -/
inductive Instr where
  /-- COMPRESS, `0x01`: the stride-based frame scaler (41_compress.md R140). -/
  | compress
  /-- CROP, `0x02`: the centred window copy (42_crop.md R160). -/
  | crop
  /-- TORGB, `0x03`: the colourspace converter (43_torgb.md R180). -/
  | torgb
deriving DecidableEq, Repr

end Sys2Proof
end

