-- ==== Sys2Proof/Decode.lean ====
section
/-! DEFINITION. Decoding of the 8-bit command word, total on every word and rejecting by name, and the encoder. -/

namespace Sys2Proof

/-- One row of the opcode map of 30_encoding.md R91. -/
structure OpRow where
  mask : Byte
  pattern : Byte
  instr : Instr
deriving DecidableEq, Repr

/-- Why a word is no command. -/
inductive DecodeError where
  /-- One of the 253 words that 30_encoding.md R94 calls illegal. -/
  | illegalCommand (word : Byte)
deriving DecidableEq, Repr

/-- The complete opcode map (30_encoding.md R91): the mask is `0xFF` on every row, since every bit is fixed. -/
def opcodeTable : List OpRow :=
  [ ⟨0xFF#8, 0x01#8, .compress⟩,
    ⟨0xFF#8, 0x02#8, .crop⟩,
    ⟨0xFF#8, 0x03#8, .torgb⟩ ]

/-- A word has a row's encoding when its masked bits are the row's. -/
def OpRow.hits (r : OpRow) (w : Byte) : Bool := w &&& r.mask == r.pattern

/-- Decoding is total: every 8-bit value has exactly one outcome (30_encoding.md R93). -/
def decode (w : Byte) : Except DecodeError Instr :=
  match opcodeTable.find? (fun r => r.hits w) with
  | some r => .ok r.instr
  | none => .error (.illegalCommand w)

/-- The command word of a command (`CMD8`, `OPC` in bits 7:0; 30_encoding.md R90, R91). -/
def encode : Instr → Byte
  | .compress => 0x01#8
  | .crop => 0x02#8
  | .torgb => 0x03#8

/-- The command the decoder reads from a table word of `nbits` bits; bits above `nbits` are zero. A command is one 8-bit word
(30_encoding.md R95), so a longer table word with a bit set above bit 7 names none. -/
def decodeTableWord (nbits w : Nat) : Option Instr :=
  if w % 2 ^ nbits < 2 ^ 8 then
    match decode (BitVec.ofNat 8 (w % 2 ^ nbits)) with
    | .ok i => some i
    | .error _ => none
  else none

end Sys2Proof
end

