-- ==== Sys2Proof/Machine/HostOp.lean ====
section
/-! DEFINITION. The names the host uses at the block's interface: registers, buffers, the four host operations and the reset
event (20_memory.md R60, R66; 10_state.md R22; 70_reset_and_hazards.md R240). -/

namespace Sys2Proof.Machine

/-- The fourteen registers of 10_state.md R22, in the order of their numbers 0 to 13. -/
inductive Reg where
  | cmd | status | err | width | height | cropw | croph | ylen | uvlen
  | owidth | oheight | oylen | ouvlen | orgblen
deriving DecidableEq, Repr

/-- The five buffers of 20_memory.md R60, five separate address spaces of bytes. -/
inductive Buffer where
  | yin | uvin | yout | uvout | rgbout
deriving DecidableEq, Repr

/-- What the outside world does to the block, one operation at a time: the four host operations of 20_memory.md R66 and the
reset event of 70_reset_and_hazards.md R240, which happens between two host operations. Registers are named by number, so that
a number that does not exist can be named (10_state.md R33). -/
inductive HostOp where
  /-- `HostWriteReg(r, v)`. -/
  | writeReg (no value : Nat)
  /-- `HostReadReg(r)`. -/
  | readReg (no : Nat)
  /-- `HostWriteMem(S, a, b)`. -/
  | writeMem (buf : Buffer) (index : Nat) (value : Byte)
  /-- `HostReadMem(S, a)`. -/
  | readMem (buf : Buffer) (index : Nat)
  /-- The reset event. -/
  | reset
deriving DecidableEq, Repr

/-- What a host read returned (70_reset_and_hazards.md R257: a run's result is the values its reads returned and the final
state). -/
inductive HostResult where
  /-- `HostReadReg(no)` returned `value`. -/
  | reg (no value : Nat)
  /-- `HostReadMem(buf, index)` returned `value`. -/
  | byte (buf : Buffer) (index : Nat) (value : Byte)
deriving DecidableEq, Repr

end Sys2Proof.Machine
end

