-- ==== Sys2Proof/Machine/State.lean ====
section
/-! DEFINITION. The state of the machine as plain data: the fourteen registers and five buffers, which are the whole
architectural state (10_state.md R21), and the model's own four fields. -/

namespace Sys2Proof.Machine

/-- STATUS (10_state.md R27). The value 3 is never produced, so it has no constructor (93_implementation_defined.md U13). -/
inductive Status where
  /-- `0`: no command has run since reset. -/
  | idle
  /-- `1`: the last command completed and its outputs are valid. -/
  | done
  /-- `2`: the last command was rejected and ERR says why. -/
  | error
deriving DecidableEq, Repr

/-- ERR (10_state.md R28; 60_exceptions.md R211). The values 5 to 7 are never produced, so they have no constructor. -/
inductive ErrCode where
  /-- `0` None. -/
  | noError
  /-- `1` InvalidDimensions. -/
  | invalidDimensions
  /-- `2` InvalidCropParameters. -/
  | invalidCropParameters
  /-- `3` InvalidFrameBuffer. -/
  | invalidFrameBuffer
  /-- `4` IllegalCommand. -/
  | illegalCommand
deriving DecidableEq, Repr

/-- A buffer: the written bytes with their indices, in ONE canonical form, indices strictly rising (`Memory.wf`). An index
that is not listed has NO value: the spec leaves its byte unspecified (10_state.md R40), and a read of it draws a free byte
(notes/assumptions/1.md). -/
abbrev Memory := List Host.Cell

/-- The canonical form: indices strictly rising. An unlisted index reads as no value, and no entry can equal that. -/
abbrev Memory.wf (m : Memory) : Prop := m.Pairwise (fun c d => c.1 < d.1)

/-- Why the machine stops. The block itself has no faulted state (70_reset_and_hazards.md R257): both reasons are about a
host operation that the block's ports cannot carry. -/
inductive Fault where
  /-- Raised by `step` on a register write whose value is wider than the register's port. Such a write cannot be expressed
  (10_state.md R34, 92_eei_decisions.md D25). Safe: the model stops, and nothing is claimed of it. -/
  | valueWiderThanPort (no value : Nat)
  /-- Raised by `step` on a buffer access at or above the buffer's capacity. Such an index cannot be expressed (20_memory.md
  R62, 92_eei_decisions.md D35). Safe: the model stops, and nothing is claimed of it. -/
  | indexBeyondCapacity (buf : Buffer) (index : Nat)
deriving DecidableEq, Repr

/-- Why an instruction has no meaning. -/
inductive Refusal where
  /-- Raised by an arm of `exec` whose instruction has no meaning yet; no arm raises it. Safe. -/
  | notModelled (mnemonic : String)
deriving DecidableEq, Repr

/-- The state. Dimension and length registers are counts that the spec reads as unsigned integers and whose arithmetic never
wraps (00_scope.md R6, R11; 40_plane_indexer.md R119), so they are naturals; that each fits its width is `State.RegsFit`, an
invariant, and not an assumption (notes/assumptions/2.md). -/
structure State where
  /-- The implementation parameter; no step changes it (00_scope.md R5). -/
  cfg : Config
  /-- Register 0, CMD, 8 bits, RW: the opcode last written by the host (10_state.md R23). -/
  cmd : Byte
  /-- Register 1, STATUS, 2 bits, RO (10_state.md R27). -/
  status : Status
  /-- Register 2, ERR, 3 bits, RO (10_state.md R28). -/
  err : ErrCode
  /-- Register 3, WIDTH, `N` bits, RW (10_state.md R24). -/
  width : Nat
  /-- Register 4, HEIGHT, `N` bits, RW (10_state.md R24). -/
  height : Nat
  /-- Register 5, CROPW, `N` bits, RW (10_state.md R25). -/
  cropw : Nat
  /-- Register 6, CROPH, `N` bits, RW (10_state.md R25). -/
  croph : Nat
  /-- Register 7, YLEN, `2N` bits, RW (10_state.md R26). -/
  ylen : Nat
  /-- Register 8, UVLEN, `2N` bits, RW (10_state.md R26). -/
  uvlen : Nat
  /-- Register 9, OWIDTH, `N` bits, RO (10_state.md R29). -/
  owidth : Nat
  /-- Register 10, OHEIGHT, `N` bits, RO (10_state.md R29). -/
  oheight : Nat
  /-- Register 11, OYLEN, `2N` bits, RO (10_state.md R29). -/
  oylen : Nat
  /-- Register 12, OUVLEN, `2N` bits, RO (10_state.md R29). -/
  ouvlen : Nat
  /-- Register 13, ORGBLEN, `2N + 2` bits, RO (10_state.md R29). -/
  orgblen : Nat
  /-- Buffer YIN, the input luma plane (20_memory.md R60). -/
  yin : Memory
  /-- Buffer UVIN, the input chroma plane (20_memory.md R60). -/
  uvin : Memory
  /-- Buffer YOUT, the output luma plane (20_memory.md R60). -/
  yout : Memory
  /-- Buffer UVOUT, the output chroma plane (20_memory.md R60). -/
  uvout : Memory
  /-- Buffer RGBOUT, the output RGB sequence (20_memory.md R60). -/
  rgbout : Memory
  /-- MODEL'S OWN: the host operations still to come, the next one first (20_memory.md R72; notes/assumptions/3.md). -/
  script : List HostOp
  /-- MODEL'S OWN: what the host's reads have returned, the oldest first (70_reset_and_hazards.md R257). -/
  returned : List HostResult
  /-- MODEL'S OWN: how many draws of `Config.freeByte` have been set aside so far (notes/assumptions/1.md). -/
  draws : Nat
deriving DecidableEq, Repr

/-- The machine right after reset, for a parameter value: every register at the value of 10_state.md R39, every byte of every
buffer unspecified (10_state.md R40), no host operation pending. -/
def State.resetOf (c : Config) : State where
  cfg := c
  cmd := 0#8
  status := .idle
  err := .noError
  width := 0
  height := 0
  cropw := 0
  croph := 0
  ylen := 0
  uvlen := 0
  owidth := 0
  oheight := 0
  oylen := 0
  ouvlen := 0
  orgblen := 0
  yin := []
  uvin := []
  yout := []
  uvout := []
  rgbout := []
  script := []
  returned := []
  draws := 0

/-- The machine right after reset, at the reference value `N = 16` (00_scope.md R5). -/
def State.reset : State := State.resetOf Config.reference

end Sys2Proof.Machine
end

