-- ==== Sys2Proof/Machine/Flags.lean ====
section
/-! DEFINITION. The numbers of the two status registers as the host reads them. The block has no condition codes and no
arithmetic flags: STATUS and ERR are its only status bits (10_state.md R31). -/

namespace Sys2Proof.Machine

/-- STATUS's encoding (10_state.md R27). -/
def Status.code : Status → BitVec 2
  | .idle => 0#2
  | .done => 1#2
  | .error => 2#2

/-- ERR's encoding, the cause codes of 60_exceptions.md R211. -/
def ErrCode.code : ErrCode → BitVec 3
  | .noError => 0#3
  | .invalidDimensions => 1#3
  | .invalidCropParameters => 2#3
  | .invalidFrameBuffer => 3#3
  | .illegalCommand => 4#3

end Sys2Proof.Machine
end

