-- ==== Sys2Proof/Machine/Ops.lean ====
section
/-! DEFINITION. The named operations over buffers and registers, the completion sequence, and the error sequence, which is the
block's one way of taking an exception. -/

namespace Sys2Proof.Machine

/-- The byte written at index `a`, if one has been written. -/
def Memory.read : Memory → Nat → Option Byte
  | [], _ => none
  | (k, v) :: m, a => if k = a then some v else Memory.read m a

/-- `MemWrite(S, a, 1, v)` on one buffer (00_scope.md R11), keeping the indices strictly rising. -/
def Memory.write : Memory → Nat → Byte → Memory
  | [], a, v => [(a, v)]
  | (k, x) :: m, a, v =>
    if a < k then (a, v) :: (k, x) :: m
    else if a = k then (a, v) :: m
    else (k, x) :: Memory.write m a v

/-- The stores of a command's loop nest, made in order. -/
def Memory.writeAll (m : Memory) (stores : List Host.Cell) : Memory :=
  stores.foldl (fun m c => Memory.write m c.1 c.2) m

/-- The loop nest `for row in 0 .. h-1: for col in 0 .. w-1: …` of the pseudocode: its stores in row-major order, which is the
reference order and is not observable (20_memory.md R77). -/
def loopNest (h w : Nat) (body : Nat → Nat → List Host.Cell) : List Host.Cell :=
  (List.range h).flatMap fun row => (List.range w).flatMap fun col => body row col

/-- A buffer by name (20_memory.md R60: five disjoint spaces). -/
def State.buffer (s : State) : Buffer → Memory
  | .yin => s.yin
  | .uvin => s.uvin
  | .yout => s.yout
  | .uvout => s.uvout
  | .rgbout => s.rgbout

/-- Replace one buffer's contents. -/
def State.setBuffer (s : State) (b : Buffer) (m : Memory) : State :=
  match b with
  | .yin => { s with yin := m }
  | .uvin => { s with uvin := m }
  | .yout => { s with yout := m }
  | .uvout => { s with uvout := m }
  | .rgbout => { s with rgbout := m }

/-- `x[NAME]` as an unsigned integer (00_scope.md R11). -/
def State.readReg (s : State) : Reg → Nat
  | .cmd => s.cmd.toNat
  | .status => s.status.code.toNat
  | .err => s.err.code.toNat
  | .width => s.width
  | .height => s.height
  | .cropw => s.cropw
  | .croph => s.croph
  | .ylen => s.ylen
  | .uvlen => s.uvlen
  | .owidth => s.owidth
  | .oheight => s.oheight
  | .oylen => s.oylen
  | .ouvlen => s.ouvlen
  | .orgblen => s.orgblen

/-- A host's store into a register: `x[NAME] <- v` for an RW register, nothing for an RO register (10_state.md R33). The value
fits, since the port is exactly as wide as the register (10_state.md R34). -/
def State.hostSetReg (s : State) (r : Reg) (v : Nat) : State :=
  match r with
  | .cmd => { s with cmd := BitVec.ofNat 8 v }
  | .width => { s with width := v }
  | .height => { s with height := v }
  | .cropw => { s with cropw := v }
  | .croph => { s with croph := v }
  | .ylen => { s with ylen := v }
  | .uvlen => { s with uvlen := v }
  | .status | .err | .owidth | .oheight | .oylen | .ouvlen | .orgblen => s

/-- A command's `MemRead(S, a, 1)` (00_scope.md R11): the byte written at `a`, or, where nothing has been written since reset,
a free byte, drawn for this read alone (93_implementation_defined.md U5: any value, drawn at each read). `site` numbers the
command's reads; the draws it may use are set aside by `State.drew`. -/
def State.load (s : State) (b : Buffer) (a site : Nat) : Byte :=
  (Memory.read (s.buffer b) a).getD (Config.freeByte (s.draws + site))

/-- Make a loop nest's stores in one buffer. -/
def State.storeAll (s : State) (b : Buffer) (stores : List Host.Cell) : State :=
  s.setBuffer b (Memory.writeAll (s.buffer b) stores)

/-- Set `k` draws aside, so that no later read uses them again. -/
def State.drew (s : State) (k : Nat) : State := { s with draws := s.draws + k }

/-- The completion sequence (40_plane_indexer.md R121). -/
def State.complete (s : State) (ow oh oy ouv orgb : Nat) : State :=
  { s with
    owidth := ow, oheight := oh, oylen := oy, ouvlen := ouv, orgblen := orgb,
    err := .noError, status := .done }

/-- The error sequence, `raise E` (60_exceptions.md R214). It is the block's trap entry: nothing is saved, no mode changes and
control goes nowhere. There is no return from it (60_exceptions.md R219): the next command overwrites STATUS and ERR. -/
def State.raise (s : State) (e : ErrCode) : State :=
  { s with
    owidth := 0, oheight := 0, oylen := 0, ouvlen := 0, orgblen := 0,
    err := e, status := .error }

/-- The reset event (70_reset_and_hazards.md R240): every register takes its reset value and every byte of every buffer becomes
unspecified. What is the host's (its remaining operations, what it has read) and the count of draws stay. -/
def State.resetEvent (s : State) : State :=
  { State.resetOf s.cfg with script := s.script, returned := s.returned, draws := s.draws }

end Sys2Proof.Machine
end

