-- ==== Sys2Proof/Machine/Operands.lean ====
section
/-! DEFINITION. The plane indexer and the validation predicates the commands share (40_plane_indexer.md). Every operand is
implicit, in a fixed register or buffer (30_encoding.md R92). -/

namespace Sys2Proof.Machine

/-- Luma address (40_plane_indexer.md R114): pixel `(x, y)` of a plane of width `w`. -/
def yaddr (x y w : Nat) : Nat := y * w + x

/-- Chroma address of byte column `j` of chroma row `cy` (40_plane_indexer.md R115): a chroma row is `w` bytes. -/
def uvByte (j cy w : Nat) : Nat := cy * w + j

/-- Address of the U byte of pair `(cx, cy)` (40_plane_indexer.md R115). -/
def uaddr (cx cy w : Nat) : Nat := uvByte (2 * cx) cy w

/-- Address of the V byte of pair `(cx, cy)` (40_plane_indexer.md R115). -/
def vaddr (cx cy w : Nat) : Nat := uvByte (2 * cx + 1) cy w

/-- RGB address of channel `c` (0 R, 1 G, 2 B) of pixel `(x, y)` (40_plane_indexer.md R117). -/
def rgbAddr (x y c w : Nat) : Nat := 3 * (y * w + x) + c

/-- `DimsOK` (40_plane_indexer.md R111). -/
def State.dimsOK (s : State) : Bool :=
  decide (0 < s.width ∧ 0 < s.height ∧ s.width % 2 = 0 ∧ s.height % 2 = 0)

/-- `Dims3OK` (40_plane_indexer.md R112). -/
def State.dims3OK (s : State) : Bool := decide (s.width % 3 = 0 ∧ s.height % 3 = 0)

/-- `FrameOK` (40_plane_indexer.md R113). The division is exact where it is used, after `DimsOK`. -/
def State.frameOK (s : State) : Bool :=
  decide (s.ylen = s.width * s.height ∧ s.uvlen = s.width * s.height / 2)

/-- `CropOK` (42_crop.md R161). -/
def State.cropOK (s : State) : Bool :=
  decide (s.cropw < s.width ∧ s.croph < s.height ∧ s.cropw % 2 = 0 ∧ s.croph % 2 = 0)

end Sys2Proof.Machine
end

