-- ==== Sys2Proof/Machine/Compress.lean ====
section
/-! DEFINITION. COMPRESS, the stride-based frame scaler (41_compress.md). -/

namespace Sys2Proof.Machine

/-- The `k`-th retained row or column: keep 2, skip 4 (41_compress.md R142). -/
def keptIndex (k : Nat) : Nat := 6 * (k / 2) + k % 2

/-- `W' = W / 3`, exact after the checks (41_compress.md R141). -/
def State.compressWidth (s : State) : Nat := s.width / 3

/-- `H' = H / 3`, exact after the checks (41_compress.md R141). -/
def State.compressHeight (s : State) : Nat := s.height / 3

/-- The luma loop nest of 41_compress.md R140. -/
def compressLumaStores (s : State) : List Host.Cell :=
  let w' := s.compressWidth
  loopNest s.compressHeight w' fun oy ox =>
    [ (yaddr ox oy w', s.load .yin (yaddr (keptIndex ox) (keptIndex oy) s.width) (yaddr ox oy w')) ]

/-- The chroma loop nest of 41_compress.md R140: source rows in steps of 3, source byte columns in steps of 6, one pair per
step (R143). Its reads are numbered after the luma reads. -/
def compressChromaStores (s : State) : List Host.Cell :=
  let w' := s.compressWidth
  let lumaReads := w' * s.compressHeight
  loopNest (s.compressHeight / 2) (w' / 2) fun cy cx =>
    [ (uaddr cx cy w', s.load .uvin (uvByte (6 * cx) (3 * cy) s.width) (lumaReads + uaddr cx cy w')),
      (vaddr cx cy w', s.load .uvin (uvByte (6 * cx + 1) (3 * cy) s.width) (lumaReads + vaddr cx cy w')) ]

/-- What COMPRESS does once its checks have passed: both loop nests, then the completion sequence. -/
def State.compressed (s : State) : State :=
  let w' := s.compressWidth
  let h' := s.compressHeight
  (((s.storeAll .yout (compressLumaStores s)).storeAll .uvout (compressChromaStores s)).drew
    (w' * h' + w' * h' / 2)).complete w' h' (w' * h') (w' * h' / 2) 0

/-- COMPRESS (41_compress.md R140): the checks in the order of 60_exceptions.md R216, then the work. -/
def execCompress (s : State) : Host.Outcome State Fault Refusal :=
  if !s.dimsOK then .next (s.raise .invalidDimensions)
  else if !s.dims3OK then .next (s.raise .invalidDimensions)
  else if !s.frameOK then .next (s.raise .invalidFrameBuffer)
  else .next s.compressed

end Sys2Proof.Machine
end

