-- ==== Sys2Proof/Machine/Crop.lean ====
section
/-! DEFINITION. CROP, the centred window copy (42_crop.md). -/

namespace Sys2Proof.Machine

/-- `W' = W - cw` (42_crop.md R162). -/
def State.cropWidth (s : State) : Nat := s.width - s.cropw

/-- `H' = H - ch` (42_crop.md R162). -/
def State.cropHeight (s : State) : Nat := s.height - s.croph

/-- `r0`, the first chroma row of the window (42_crop.md R165). -/
def State.cropChromaTop (s : State) : Nat := s.croph / 4

/-- `r1`, the chroma row after the window's last (42_crop.md R165). -/
def State.cropChromaBottom (s : State) : Nat := (s.height - s.croph / 2) / 2

/-- The luma loop nest of 42_crop.md R160. -/
def cropLumaStores (s : State) : List Host.Cell :=
  let w' := s.cropWidth
  loopNest s.cropHeight w' fun oy ox =>
    [ (yaddr ox oy w', s.load .yin (yaddr (s.cropw / 2 + ox) (s.croph / 2 + oy) s.width) (yaddr ox oy w')) ]

/-- The chroma loop nest of 42_crop.md R160: the byte columns `cw/2` to `W - cw/2` of the chroma rows `r0` to `r1`, the luma
column bounds reused as they are (R164). Its reads are numbered after the luma reads. -/
def cropChromaStores (s : State) : List Host.Cell :=
  let w' := s.cropWidth
  let lumaReads := w' * s.cropHeight
  loopNest (s.cropChromaBottom - s.cropChromaTop) w' fun cy b =>
    [ (uvByte b cy w',
       s.load .uvin (uvByte (s.cropw / 2 + b) (s.cropChromaTop + cy) s.width) (lumaReads + uvByte b cy w')) ]

/-- What CROP does once its checks have passed: both loop nests, then the completion sequence. -/
def State.cropped (s : State) : State :=
  let w' := s.cropWidth
  let h' := s.cropHeight
  (((s.storeAll .yout (cropLumaStores s)).storeAll .uvout (cropChromaStores s)).drew
    (w' * h' + w' * h' / 2)).complete w' h' (w' * h') (w' * h' / 2) 0

/-- CROP (42_crop.md R160): the checks in the order of 60_exceptions.md R216, then the work. -/
def execCrop (s : State) : Host.Outcome State Fault Refusal :=
  if !s.dimsOK then .next (s.raise .invalidDimensions)
  else if !s.frameOK then .next (s.raise .invalidFrameBuffer)
  else if !s.cropOK then .next (s.raise .invalidCropParameters)
  else .next s.cropped

end Sys2Proof.Machine
end

