-- ==== Sys2Proof/Machine/Torgb.lean ====
section
/-! DEFINITION. TORGB, the colourspace converter (43_torgb.md), in exact integer arithmetic scaled by 1000000 (R185). -/

namespace Sys2Proof.Machine

/-- A sample as a signed integer: zero-extended, so that 255 is 255 and never -1 (43_torgb.md R183). -/
def sample (b : Byte) : Int := (b.toNat : Int)

/-- `d` or `e`: a chroma sample less the offset 128 (43_torgb.md R183). -/
def chroma (b : Byte) : Int := sample b - 128

/-- `nR`, one million times R of 43_torgb.md R184. -/
def redNum (y v : Byte) : Int := 1000000 * sample y + 1402000 * chroma v

/-- `nG`, one million times G of 43_torgb.md R184. -/
def greenNum (y u v : Byte) : Int := 1000000 * sample y - 344136 * chroma u - 714136 * chroma v

/-- `nB`, one million times B of 43_torgb.md R184. -/
def blueNum (y u : Byte) : Int := 1000000 * sample y + 1772000 * chroma u

/-- `clamp(v, lo, hi)` (00_scope.md R10). -/
def clamp (v lo hi : Int) : Int := if v < lo then lo else if v > hi then hi else v

/-- A channel's stored byte: floor division by one million, then the clamp to 0..255, which is the clamp and the truncation of
43_torgb.md R186. Integer division by a positive number is floor division (00_scope.md R10). -/
def channel (num : Int) : Byte := BitVec.ofNat 8 (clamp (num / 1000000) 0 255).toNat

/-- The three stores of pixel `(x, y)` (43_torgb.md R180, R182). Its three reads are numbered `3p`, `3p + 1` and `3p + 2` for the
pixel's row-major number `p`. -/
def pixelStores (s : State) (y x : Nat) : List Host.Cell :=
  let yv := s.load .yin (yaddr x y s.width) (rgbAddr x y 0 s.width)
  let u := s.load .uvin (uaddr (x / 2) (y / 2) s.width) (rgbAddr x y 1 s.width)
  let v := s.load .uvin (vaddr (x / 2) (y / 2) s.width) (rgbAddr x y 2 s.width)
  [ (rgbAddr x y 0 s.width, channel (redNum yv v)),
    (rgbAddr x y 1 s.width, channel (greenNum yv u v)),
    (rgbAddr x y 2 s.width, channel (blueNum yv u)) ]

/-- The loop nest of 43_torgb.md R180. -/
def torgbStores (s : State) : List Host.Cell := loopNest s.height s.width (pixelStores s)

/-- What TORGB does once its checks have passed: the loop nest, then the completion sequence. -/
def State.converted (s : State) : State :=
  ((s.storeAll .rgbout (torgbStores s)).drew (3 * s.width * s.height)).complete 0 0 0 0 (3 * s.width * s.height)

/-- TORGB (43_torgb.md R180): the checks in the order of 60_exceptions.md R216, then the work. -/
def execTorgb (s : State) : Host.Outcome State Fault Refusal :=
  if !s.dimsOK then .next (s.raise .invalidDimensions)
  else if !s.frameOK then .next (s.raise .invalidFrameBuffer)
  else .next s.converted

end Sys2Proof.Machine
end

