-- ==== Sys2Proof/Machine/Dispatch.lean ====
section
/-! DEFINITION. One arm per command (30_encoding.md R93). -/

namespace Sys2Proof.Machine

def exec (i : Instr) (s : State) : Host.Outcome State Fault Refusal :=
  match i with
  | .compress => Sys2Proof.Machine.execCompress s
  | .crop => Sys2Proof.Machine.execCrop s
  | .torgb => Sys2Proof.Machine.execTorgb s

end Sys2Proof.Machine
end

