-- ==== Sys2Proof/Machine/Ports.lean ====
section
/-! DEFINITION. The host's ports: register numbers, widths and access rights (10_state.md R22), buffer capacities (20_memory.md
R62), and which host operations a port can carry at all. -/

namespace Sys2Proof.Machine

/-- The register a number names (10_state.md R22); numbers 14 and above name none (R33). -/
def Reg.ofNum : Nat → Option Reg
  | 0 => some .cmd
  | 1 => some .status
  | 2 => some .err
  | 3 => some .width
  | 4 => some .height
  | 5 => some .cropw
  | 6 => some .croph
  | 7 => some .ylen
  | 8 => some .uvlen
  | 9 => some .owidth
  | 10 => some .oheight
  | 11 => some .oylen
  | 12 => some .ouvlen
  | 13 => some .orgblen
  | _ => none

/-- A register's number (10_state.md R22). -/
def Reg.num : Reg → Nat
  | .cmd => 0
  | .status => 1
  | .err => 2
  | .width => 3
  | .height => 4
  | .cropw => 5
  | .croph => 6
  | .ylen => 7
  | .uvlen => 8
  | .owidth => 9
  | .oheight => 10
  | .oylen => 11
  | .ouvlen => 12
  | .orgblen => 13

/-- A register's width in bits (10_state.md R22; 00_scope.md R6). -/
def Reg.bits (c : Config) : Reg → Nat
  | .cmd => 8
  | .status => 2
  | .err => 3
  | .width | .height | .cropw | .croph | .owidth | .oheight => c.n
  | .ylen | .uvlen | .oylen | .ouvlen => 2 * c.n
  | .orgblen => 2 * c.n + 2

/-- "RW" in 10_state.md R22; the others are "RO". -/
def Reg.hostWritable : Reg → Bool
  | .cmd | .width | .height | .cropw | .croph | .ylen | .uvlen => true
  | .status | .err | .owidth | .oheight | .oylen | .ouvlen | .orgblen => false

/-- The buffers the host may write (20_memory.md R60). -/
def Buffer.hostWritable : Buffer → Bool
  | .yin | .uvin => true
  | .yout | .uvout | .rgbout => false

/-- A buffer's capacity in bytes (20_memory.md R62). -/
def Buffer.capacity (c : Config) : Buffer → Nat
  | .yin | .yout => 2 ^ (2 * c.n)
  | .uvin | .uvout => 2 ^ (2 * c.n - 1)
  | .rgbout => 3 * 2 ^ (2 * c.n)

/-- Why no port can carry a host operation, if none can. The port to a register is exactly as wide as the register (10_state.md
R34) and a buffer's index port exactly as wide as its capacity (20_memory.md R62). A register number that does not exist has no
width, and a write to it is ignored whatever its value (10_state.md R33). -/
def HostOp.portFault (c : Config) : HostOp → Option Fault
  | .writeReg no v =>
    match Reg.ofNum no with
    | some r => if v < 2 ^ r.bits c then none else some (.valueWiderThanPort no v)
    | none => none
  | .readReg _ => none
  | .writeMem b a _ => if a < b.capacity c then none else some (.indexBeyondCapacity b a)
  | .readMem b a => if a < b.capacity c then none else some (.indexBeyondCapacity b a)
  | .reset => none

end Sys2Proof.Machine
end

