-- ==== Sys2Proof/Machine/HostPort.lean ====
section
/-! DEFINITION. The host interface (20_memory.md R66): the four host operations and the reset event, each atomic. A write to CMD
is the one operation that does work (30_encoding.md R93). -/

namespace Sys2Proof.Machine

/-- Decode and dispatch of the word just stored in CMD (30_encoding.md R93): a word that names no command raises IllegalCommand
(R94). -/
def runCommand (word : Byte) (s : State) : Host.Outcome State Fault Refusal :=
  match decode word with
  | .ok i => exec i s
  | .error (.illegalCommand _) => .next (s.raise .illegalCommand)

/-- `HostWriteReg(r, v)` (20_memory.md R66). A write to a register that is RO or does not exist is ignored (10_state.md R33). -/
def hostWriteReg (no v : Nat) (s : State) : Host.Outcome State Fault Refusal :=
  match Reg.ofNum no with
  | some .cmd => runCommand (BitVec.ofNat 8 v) (s.hostSetReg .cmd v)
  | some r => .next (s.hostSetReg r v)
  | none => .next s

/-- The value `HostReadReg(r)` returns: 0 if the register does not exist (10_state.md R33). -/
def hostRegValue (s : State) (no : Nat) : Nat :=
  match Reg.ofNum no with
  | some r => s.readReg r
  | none => 0

/-- `HostReadReg(r)` (20_memory.md R66): no side effect on the block. -/
def hostReadReg (no : Nat) (s : State) : State :=
  { s with returned := s.returned ++ [.reg no (hostRegValue s no)] }

/-- `HostWriteMem(S, a, b)` (20_memory.md R66): nothing for an output buffer. -/
def hostWriteMem (b : Buffer) (a : Nat) (v : Byte) (s : State) : State :=
  if b.hostWritable then s.setBuffer b (Memory.write (s.buffer b) a v) else s

/-- Is the byte at index `a` one the host may rely on, once written? In an output buffer only below the length register, the
valid extent (20_memory.md R64); an input buffer has no such bound. -/
def State.inExtent (s : State) (b : Buffer) (a : Nat) : Bool :=
  match b with
  | .yin | .uvin => true
  | .yout => decide (a < s.oylen)
  | .uvout => decide (a < s.ouvlen)
  | .rgbout => decide (a < s.orgblen)

/-- The byte `HostReadMem(S, a)` returns: the one written, where it is in the valid extent and has been written, else a free
byte (20_memory.md R64; 10_state.md R40; 93_implementation_defined.md U5, U6). -/
def hostByteValue (s : State) (b : Buffer) (a : Nat) : Byte :=
  if s.inExtent b a then s.load b a 0 else Config.freeByte s.draws

/-- `HostReadMem(S, a)` (20_memory.md R66): no side effect on the block. One draw is set aside for it. -/
def hostReadMem (b : Buffer) (a : Nat) (s : State) : State :=
  { s with
    returned := s.returned ++ [.byte b a (hostByteValue s b a)]
    draws := s.draws + 1 }

/-- The effect of a host operation (20_memory.md R66; 70_reset_and_hazards.md R240). -/
def performOp (op : HostOp) (s : State) : Host.Outcome State Fault Refusal :=
  match op with
  | .writeReg no v => hostWriteReg no v s
  | .readReg no => .next (hostReadReg no s)
  | .writeMem b a v => .next (hostWriteMem b a v s)
  | .readMem b a => .next (hostReadMem b a s)
  | .reset => .next s.resetEvent

/-- One host operation, atomic and complete before the next (20_memory.md R66, R72). One that no port can carry stops the model
(10_state.md R34; 20_memory.md R62). -/
def runHostOp (op : HostOp) (s : State) : Host.Outcome State Fault Refusal :=
  match op.portFault s.cfg with
  | some f => .fault f
  | none => performOp op s

/-- One step: the host's next operation. With none pending the block is idle and keeps all its state (60_exceptions.md R227;
notes/assumptions/3.md). -/
def stepHost (s : State) : Host.Outcome State Fault Refusal :=
  match s.script with
  | [] => .next s
  | op :: rest => runHostOp op { s with script := rest }

/-- The host operation that puts a command word of `nbits` bits to the block: the write of CMD, register 0. -/
def commandWrite (nbits w : Nat) : HostOp := .writeReg 0 (w % 2 ^ nbits)

end Sys2Proof.Machine
end

