-- ==== Sys2Proof/Machine/Step.lean ====
section
/-! DEFINITION. The step of the machine: the host's next operation. -/

namespace Sys2Proof.Machine

/-- One step (20_memory.md R72): the host's operations take effect one at a time, in the order the host issues them, and the
engine acts only inside a write of CMD. -/
def step (s : State) : Host.Outcome State Fault Refusal := stepHost s

/-- The state whose next host operation writes the given command word to CMD. The block fetches nothing (10_state.md R30): the
command that runs is the one the host's write names (notes/assumptions/4.md). -/
def State.withFetchWord (s : State) (nbits w : Nat) : State :=
  { s with script := commandWrite nbits w :: s.script }

end Sys2Proof.Machine
end

