-- ==== Sys2Proof/Machine/HostScript.lean ====
section
/-! DEFINITION. The notation of host scripts (30_encoding.md R96), their encoding as host operations (R98), and the
pseudo-instructions with their whole expansions (R97). -/

namespace Sys2Proof.Machine

/-- A statement of a host script (30_encoding.md R96). -/
inductive Stmt where
  /-- `WR NAME, v`. -/
  | wr (r : Reg) (v : Nat)
  /-- `RD NAME`. -/
  | rd (r : Reg)
  /-- `LD S, a, [b0, b1, ...]`. -/
  | ld (b : Buffer) (a : Nat) (bytes : List Byte)
  /-- `RDM S, a, n`. -/
  | rdm (b : Buffer) (a n : Nat)
  /-- `COMPRESS`, `CROP` or `TORGB`: start the command. -/
  | run (i : Instr)
deriving DecidableEq, Repr

/-- Consecutive byte writes, ascending (30_encoding.md R96, `LD`). -/
def loadBytes (b : Buffer) (a : Nat) : List Byte → List HostOp
  | [] => []
  | v :: vs => .writeMem b a v :: loadBytes b (a + 1) vs

/-- A statement as host operations (30_encoding.md R96, R98). -/
def Stmt.ops : Stmt → List HostOp
  | .wr r v => [.writeReg r.num v]
  | .rd r => [.readReg r.num]
  | .ld b a bytes => loadBytes b a bytes
  | .rdm b a n => (List.range n).map fun i => .readMem b (a + i)
  | .run i => [.writeReg 0 (encode i).toNat]

/-- A host script as host operations (30_encoding.md R98). -/
def scriptOps (p : List Stmt) : List HostOp := p.flatMap Stmt.ops

/-- A frame value `(Y, UV, w, h)` (30_encoding.md R97). -/
structure Frame where
  y : List Byte
  uv : List Byte
  w : Nat
  h : Nat
deriving DecidableEq, Repr

/-- Put the operations of a script before the host's pending ones, and run them, one step each. -/
def perform (p : List Stmt) (s : State) : Host.Outcome State Fault Refusal :=
  Sys2Proof.core.run (scriptOps p).length { s with script := scriptOps p ++ s.script }

/-- The host goes on, from the state it has reached: `;` between the parts of an expansion of 30_encoding.md R97 where the later part
depends on what the earlier one read. -/
def andThen (o : Host.Outcome State Fault Refusal) (k : State → Host.Outcome State Fault Refusal) :
    Host.Outcome State Fault Refusal :=
  match o with
  | .next t => k t
  | .fault f => .fault f
  | .refused r => .refused r

/-- The value a result gives for a register, if it is a read of that register. -/
def HostResult.regValue (r : Reg) : HostResult → Option Nat
  | .reg no v => if no = r.num then some v else none
  | .byte _ _ _ => none

/-- The byte a result gives for an index of a buffer, if it is a read of that byte. -/
def HostResult.byteValue (b : Buffer) (a : Nat) : HostResult → Option Byte
  | .reg _ _ => none
  | .byte b' a' v => if b' = b ∧ a' = a then some v else none

/-- What the latest `RD r` gave, the `=>` of 30_encoding.md R96. The pseudo-instructions ask only for registers they have just read;
0 stands for a register that was never read. -/
def State.lastRead (s : State) (r : Reg) : Nat := (s.returned.reverse.findSome? (HostResult.regValue r)).getD 0

/-- What the latest `RDM b, 0, n` gave, the `=>` of 30_encoding.md R96. `CHAIN` asks only for bytes it has just read; 0 stands for a
byte that was never read. -/
def State.lastBytes (s : State) (b : Buffer) (n : Nat) : List Byte :=
  (List.range n).map fun a => (s.returned.reverse.findSome? (HostResult.byteValue b a)).getD 0

/-- `if DONE`: the host's latest `RD STATUS` gave 1 (30_encoding.md R97; 10_state.md R27). -/
def State.sawDone (s : State) : Bool := s.lastRead .status == 1

/-- `LOADFRAME f` (30_encoding.md R97). -/
def loadFrame (f : Frame) : List Stmt :=
  [ .ld .yin 0 f.y, .ld .uvin 0 f.uv, .wr .width f.w, .wr .height f.h,
    .wr .ylen f.y.length, .wr .uvlen f.uv.length ]

/-- `READFRAME` (30_encoding.md R97). -/
def readFrame (s : State) : Host.Outcome State Fault Refusal :=
  andThen (perform [.rd .status] s) fun t =>
    if t.sawDone then
      andThen (perform [.rd .owidth, .rd .oheight, .rd .oylen, .rd .ouvlen] t) fun u =>
        perform [.rdm .yout 0 (u.lastRead .oylen), .rdm .uvout 0 (u.lastRead .ouvlen)] u
    else perform [.rd .err] t

/-- The end of `toRGB(f)`, after its command (30_encoding.md R97). -/
def readRgb (s : State) : Host.Outcome State Fault Refusal :=
  andThen (perform [.rd .status] s) fun t =>
    if t.sawDone then
      andThen (perform [.rd .orgblen] t) fun u => perform [.rdm .rgbout 0 (u.lastRead .orgblen)] u
    else perform [.rd .err] t

/-- `compress(f)` (30_encoding.md R97). -/
def callCompress (f : Frame) (s : State) : Host.Outcome State Fault Refusal :=
  andThen (perform (loadFrame f ++ [.run .compress]) s) readFrame

/-- `crop(f, cw, ch)` (30_encoding.md R97). -/
def callCrop (f : Frame) (cw ch : Nat) (s : State) : Host.Outcome State Fault Refusal :=
  andThen (perform (loadFrame f ++ [.wr .cropw cw, .wr .croph ch, .run .crop]) s) readFrame

/-- `toRGB(f)` (30_encoding.md R97). -/
def callTorgb (f : Frame) (s : State) : Host.Outcome State Fault Refusal :=
  andThen (perform (loadFrame f ++ [.run .torgb]) s) readRgb

/-- `CHAIN` (30_encoding.md R97): read the output frame, `OYLEN` and `OUVLEN` bytes of its planes, and load what was read as the next
input frame. -/
def chain (s : State) : Host.Outcome State Fault Refusal :=
  andThen (perform [.rdm .yout 0 s.oylen, .rdm .uvout 0 s.ouvlen, .rd .owidth, .rd .oheight] s) fun t =>
    perform (loadFrame ⟨t.lastBytes .yout s.oylen, t.lastBytes .uvout s.ouvlen, t.lastRead .owidth, t.lastRead .oheight⟩) t

/-- The six pseudo-instructions (30_encoding.md R97). -/
inductive Pseudo where
  | loadFrame (f : Frame)
  | compress (f : Frame)
  | crop (f : Frame) (cw ch : Nat)
  | toRGB (f : Frame)
  | readFrame
  | chain
deriving DecidableEq, Repr

/-- A pseudo-instruction runs as its expansion (30_encoding.md R97). -/
def Pseudo.run : Pseudo → State → Host.Outcome State Fault Refusal
  | .loadFrame f => perform (Sys2Proof.Machine.loadFrame f)
  | .compress f => callCompress f
  | .crop f cw ch => callCrop f cw ch
  | .toRGB f => callTorgb f
  | .readFrame => Sys2Proof.Machine.readFrame
  | .chain => Sys2Proof.Machine.chain

end Sys2Proof.Machine
end

