-- ==== Sys2Proof/WellFormed.lean ====
section
/-! DEFINITION. What may be put to the machine. A command has no fields, so each is well-formed; what can be ill-formed is a
host operation, by a value or an index that its port cannot carry. -/

namespace Sys2Proof

/-- A command word has no operand field that could be out of range (30_encoding.md R90). -/
def Instr.wf : Instr → Bool
  | .compress => true
  | .crop => true
  | .torgb => true

/-- A host operation that the block's ports can carry (10_state.md R34; 20_memory.md R62). -/
def Machine.HostOp.wf (c : Config) (op : Machine.HostOp) : Bool := (op.portFault c).isNone

/-- A host script all of whose operations can be carried. -/
def Machine.scriptWf (c : Config) (ops : List Machine.HostOp) : Bool := ops.all (Machine.HostOp.wf c)

end Sys2Proof
end

