-- ==== Sys2Proof/Safety.lean ====
section
/-! DEFINITION. The terms claims are stated in: what a legal state is (`State.Inv`, an invariant of the machine), and when a
command has copied a byte. -/

namespace Sys2Proof.Machine

/-- Every register holds a value that fits its width (00_scope.md R9; 10_state.md R22, R29 "Widths suffice"). -/
def State.RegsFit (s : State) : Prop := ∀ r : Reg, s.readReg r < 2 ^ r.bits s.cfg

/-- Every buffer is in canonical form and lists no index at or above its capacity (20_memory.md R62). -/
def State.BuffersFit (s : State) : Prop :=
  ∀ b : Buffer, Memory.wf (s.buffer b) ∧ ∀ c ∈ s.buffer b, c.1 < b.capacity s.cfg

/-- `ERR = 0` if and only if STATUS is IDLE or DONE (10_state.md R28). -/
def State.ErrMatchesStatus (s : State) : Prop := s.err = .noError ↔ s.status ≠ .error

/-- The five output registers are all zero. -/
def State.NoOutput (s : State) : Prop :=
  s.owidth = 0 ∧ s.oheight = 0 ∧ s.oylen = 0 ∧ s.ouvlen = 0 ∧ s.orgblen = 0

/-- The shape COMPRESS or CROP leaves when it ends DONE: a conforming output frame (10_state.md R29). -/
def State.FrameOutput (s : State) : Prop :=
  0 < s.owidth ∧ 0 < s.oheight ∧ s.owidth % 2 = 0 ∧ s.oheight % 2 = 0 ∧
    s.oylen = s.owidth * s.oheight ∧ s.ouvlen = s.owidth * s.oheight / 2 ∧ s.orgblen = 0

/-- The shape TORGB leaves when it ends DONE: an RGB sequence and no frame (10_state.md R29). The input frame has even sides, so
the length is a multiple of 12. -/
def State.RgbOutput (s : State) : Prop :=
  s.owidth = 0 ∧ s.oheight = 0 ∧ s.oylen = 0 ∧ s.ouvlen = 0 ∧ 0 < s.orgblen ∧ s.orgblen % 12 = 0

/-- Which shape holds when (10_state.md R29; 70_reset_and_hazards.md R241): DONE with the shape of the command CMD names, and
otherwise no output; before the first command CMD still holds its reset value. -/
def State.OutputShape (s : State) : Prop :=
  match s.status with
  | .idle => s.cmd = 0#8 ∧ s.NoOutput
  | .done => ((s.cmd = 0x01#8 ∨ s.cmd = 0x02#8) ∧ s.FrameOutput) ∨ (s.cmd = 0x03#8 ∧ s.RgbOutput)
  | .error => s.NoOutput

/-- Every byte of an output's valid extent has been written by a command (20_memory.md R64, R78). -/
def State.ExtentsWritten (s : State) : Prop :=
  (∀ a < s.oylen, ∃ v, Memory.read s.yout a = some v) ∧
    (∀ a < s.ouvlen, ∃ v, Memory.read s.uvout a = some v) ∧
    (∀ a < s.orgblen, ∃ v, Memory.read s.rgbout a = some v)

/-- A legal state of the machine. -/
structure State.Inv (s : State) : Prop where
  cfgOK : s.cfg.wf
  regsFit : s.RegsFit
  buffersFit : s.BuffersFit
  errMatchesStatus : s.ErrMatchesStatus
  outputShape : s.OutputShape
  extentsWritten : s.ExtentsWritten

/-- Every pending host operation is one the ports can carry: then no step stops. -/
def State.ScriptOK (s : State) : Prop := scriptWf s.cfg s.script = true

/-- The byte at `dst` of `m'` is the byte at `src` of `m`: it is written, and where `src` had been written it is that byte. Where
`src` had not been written since reset the byte copied is a free value, and nothing is said of it (notes/assumptions/1.md). -/
def CopiedTo (m : Memory) (src : Nat) (m' : Memory) (dst : Nat) : Prop :=
  (∃ v, Memory.read m' dst = some v) ∧ ∀ v, Memory.read m src = some v → Memory.read m' dst = some v

/-- Two memories agree on an index, and a byte has been written there. -/
def AgreeWritten (m m' : Memory) (a : Nat) : Prop :=
  Memory.read m a = Memory.read m' a ∧ ∃ v, Memory.read m a = some v

/-- The numbers of STATUS (10_state.md R27), written out. -/
def statusNumber : Status → Nat
  | .idle => 0
  | .done => 1
  | .error => 2

/-- The numbers of ERR (10_state.md R28; 60_exceptions.md R211), written out. -/
def errNumber : ErrCode → Nat
  | .noError => 0
  | .invalidDimensions => 1
  | .invalidCropParameters => 2
  | .invalidFrameBuffer => 3
  | .illegalCommand => 4

/-- The step answers a next state, with the operation at the head of the script done and the parameter as it was. -/
def MakesAStep (s : State) (rest : List HostOp) : Prop := ∃ t, step s = .next t ∧ t.script = rest ∧ t.cfg = s.cfg

/-- The sides are positive and even (40_plane_indexer.md R111). -/
def Frame.EvenSides (f : Frame) : Prop := 0 < f.w ∧ 0 < f.h ∧ f.w % 2 = 0 ∧ f.h % 2 = 0

/-- The planes have the lengths of 4:2:0 (40_plane_indexer.md R113). -/
def Frame.PlaneLengths (f : Frame) : Prop := f.y.length = f.w * f.h ∧ f.uv.length = f.w * f.h / 2

/-- A conforming frame value whose sides the registers can hold; its planes then fit as well (00_scope.md R14; 20_memory.md R62). -/
def Frame.Conforming (c : Config) (f : Frame) : Prop :=
  f.EvenSides ∧ f.PlaneLengths ∧ f.w < 2 ^ c.n ∧ f.h < 2 ^ c.n

/-- A frame value, conforming or not, that `LOADFRAME` can load: each side and length fits its register and each plane its buffer
(10_state.md R22; 20_memory.md R62). -/
def Frame.Fits (c : Config) (f : Frame) : Prop :=
  f.w < 2 ^ c.n ∧ f.h < 2 ^ c.n ∧ f.y.length < 2 ^ (2 * c.n) ∧ f.uv.length < 2 ^ (2 * c.n) ∧
    f.uv.length ≤ 2 ^ (2 * c.n - 1)

/-- The call runs to its end and the host has read STATUS ERROR and then this code (30_encoding.md R97). -/
def ReportsError (p : Pseudo) (s : State) (code : Nat) : Prop :=
  ∃ t, p.run s = .next t ∧ t.script = s.script ∧ t.returned = s.returned ++ [.reg 1 2, .reg 2 code]

end Sys2Proof.Machine
end

