-- ==== Sys2Proof/Certificates/Slice0/Obligations.lean ====
section
/-! DEFINITION. The statements for the provers. Every statement about `s : State` is a statement about every value of the
parameter `N`, which the state carries. -/

open Sys2Proof Sys2Proof.Machine

/-! ### Encoding and dispatch -/

/-- 30_encoding.md R91: the three command words, bit by bit as the opcode map gives them, decode to their commands, and the
neighbouring words `0x00`, `0x04`, `0x81` and `0xFF` to none (R94; vectors V-X1 to V-X4). -/
def Obligations.CommandWordsOfTheOpcodeMapDecode : Prop :=
  decodeTableWord 8 0b00000001 = some .compress ∧ decodeTableWord 8 0b00000010 = some .crop ∧
    decodeTableWord 8 0b00000011 = some .torgb ∧ decodeTableWord 8 0b00000000 = none ∧
    decodeTableWord 8 0b00000100 = none ∧ decodeTableWord 8 0b10000001 = none ∧ decodeTableWord 8 0b11111111 = none

/-- 30_encoding.md R91, R94: decoding is right both ways. A word decodes to a command exactly when it is that command's word, so
decode of encode is the identity and every other of the 256 words is rejected by name. -/
def Obligations.DecodeAgreesWithEncode : Prop :=
  ∀ w : Byte, (∀ i : Instr, decode w = .ok i ↔ w = encode i) ∧
    ((∀ i : Instr, w ≠ encode i) → decode w = .error (.illegalCommand w))

/-- 30_encoding.md R93: when the host's next operation writes to CMD a word that decodes to the command `i`, the step stores the
word in CMD and is `exec i`. That the step also takes the operation off the script is the model's (notes/assumptions/3.md), and so is
the second clause, which says the same of the state that `State.withFetchWord` makes (notes/assumptions/4.md). -/
def Obligations.StepRunsTheDecodedCommand : Prop :=
  (∀ (s : State) (v : Nat) (rest : List HostOp) (i : Instr),
    s.script = .writeReg 0 v :: rest → v < 2 ^ 8 → decode (BitVec.ofNat 8 v) = .ok i →
      step s = exec i { s with cmd := BitVec.ofNat 8 v, script := rest }) ∧
  ∀ (s : State) (w : Nat) (i : Instr), decodeTableWord 8 w = some i →
    step (s.withFetchWord 8 w) = exec i { s with cmd := BitVec.ofNat 8 w }

/-- 30_encoding.md R94: a write to CMD of any of the 253 other words raises IllegalCommand, and changes nothing else but CMD itself. That
the step takes the operation off the script is the model's (notes/assumptions/3.md). -/
def Obligations.IllegalWordRaisesIllegalCommand : Prop :=
  ∀ (s : State) (v : Nat) (rest : List HostOp),
    s.script = .writeReg 0 v :: rest → v < 2 ^ 8 → v ≠ 0x01 → v ≠ 0x02 → v ≠ 0x03 →
      step s = .next { s with
        cmd := BitVec.ofNat 8 v, script := rest, status := .error, err := .illegalCommand,
        owidth := 0, oheight := 0, oylen := 0, ouvlen := 0, orgblen := 0 }

/-! ### The three commands: completion and result -/

/-- 41_compress.md R140 to R145: on a conforming frame whose sides are multiples of 3, COMPRESS ends DONE with the output
registers of R121 and every output byte the input byte of R142 (luma) or R143 (chroma). -/
def Obligations.CompressCompletesWithTheDecimatedFrame : Prop :=
  ∀ s : State, 0 < s.width → 0 < s.height → s.width % 2 = 0 → s.height % 2 = 0 → s.width % 3 = 0 → s.height % 3 = 0 →
    s.ylen = s.width * s.height → s.uvlen = s.width * s.height / 2 →
    ∃ t, exec .compress s = .next t ∧
      t.status = .done ∧ t.err = .noError ∧
      3 * t.owidth = s.width ∧ 3 * t.oheight = s.height ∧ t.oylen = t.owidth * t.oheight ∧
      t.ouvlen = t.owidth * t.oheight / 2 ∧ t.orgblen = 0 ∧
      (∀ ox oy, ox < t.owidth → oy < t.oheight →
        CopiedTo s.yin ((6 * (oy / 2) + oy % 2) * s.width + (6 * (ox / 2) + ox % 2)) t.yout (oy * t.owidth + ox)) ∧
      (∀ cx cy, 2 * cx < t.owidth → 2 * cy < t.oheight →
        CopiedTo s.uvin (3 * cy * s.width + 6 * cx) t.uvout (cy * t.owidth + 2 * cx) ∧
        CopiedTo s.uvin (3 * cy * s.width + 6 * cx + 1) t.uvout (cy * t.owidth + 2 * cx + 1))

/-- 42_crop.md R160 to R165: on a conforming frame with legal crop amounts, CROP ends DONE with the output registers of R121,
every luma byte that of the centred window (R163) and every chroma byte that of byte column `cw/2 + b` of chroma row
`ch div 4 + cy` (R164, R165). -/
def Obligations.CropCompletesWithTheCentredWindow : Prop :=
  ∀ s : State, 0 < s.width → 0 < s.height → s.width % 2 = 0 → s.height % 2 = 0 →
    s.ylen = s.width * s.height → s.uvlen = s.width * s.height / 2 →
    s.cropw < s.width → s.croph < s.height → s.cropw % 2 = 0 → s.croph % 2 = 0 →
    ∃ t, exec .crop s = .next t ∧
      t.status = .done ∧ t.err = .noError ∧
      t.owidth + s.cropw = s.width ∧ t.oheight + s.croph = s.height ∧ t.oylen = t.owidth * t.oheight ∧
      t.ouvlen = t.owidth * t.oheight / 2 ∧ t.orgblen = 0 ∧
      (∀ ox oy, ox < t.owidth → oy < t.oheight →
        CopiedTo s.yin ((s.croph / 2 + oy) * s.width + (s.cropw / 2 + ox)) t.yout (oy * t.owidth + ox)) ∧
      (∀ b cy, b < t.owidth → 2 * cy < t.oheight →
        CopiedTo s.uvin ((s.croph / 4 + cy) * s.width + (s.cropw / 2 + b)) t.uvout (cy * t.owidth + b))

/-- 43_torgb.md R180 to R186: on a conforming frame TORGB ends DONE with `ORGBLEN = 3*W*H` and the other output lengths 0; every
byte of RGBOUT below that length is written, and where the three samples of pixel `(x, y)` have been written its bytes are the
formulas of R180, in R, G, B order. -/
def Obligations.TorgbCompletesWithTheConvertedPixels : Prop :=
  ∀ s : State, 0 < s.width → 0 < s.height → s.width % 2 = 0 → s.height % 2 = 0 →
    s.ylen = s.width * s.height → s.uvlen = s.width * s.height / 2 →
    ∃ t, exec .torgb s = .next t ∧
      t.status = .done ∧ t.err = .noError ∧
      t.owidth = 0 ∧ t.oheight = 0 ∧ t.oylen = 0 ∧ t.ouvlen = 0 ∧ t.orgblen = 3 * s.width * s.height ∧
      (∀ a < 3 * s.width * s.height, ∃ v, Memory.read t.rgbout a = some v) ∧
      (∀ x y, x < s.width → y < s.height → ∀ yv u v : Byte,
        Memory.read s.yin (y * s.width + x) = some yv →
        Memory.read s.uvin (y / 2 * s.width + 2 * (x / 2)) = some u →
        Memory.read s.uvin (y / 2 * s.width + 2 * (x / 2) + 1) = some v →
        ∃ r g b : Byte,
          Memory.read t.rgbout (3 * (y * s.width + x)) = some r ∧
          Memory.read t.rgbout (3 * (y * s.width + x) + 1) = some g ∧
          Memory.read t.rgbout (3 * (y * s.width + x) + 2) = some b ∧
          (r.toNat : Int) = max 0 (min 255 ((1000000 * (yv.toNat : Int) + 1402000 * ((v.toNat : Int) - 128)) / 1000000)) ∧
          (g.toNat : Int) = max 0 (min 255 ((1000000 * (yv.toNat : Int) - 344136 * ((u.toNat : Int) - 128)
            - 714136 * ((v.toNat : Int) - 128)) / 1000000)) ∧
          (b.toNat : Int) = max 0 (min 255 ((1000000 * (yv.toNat : Int) + 1772000 * ((u.toNat : Int) - 128)) / 1000000)))

/-! ### Errors -/

/-- 60_exceptions.md R216: whatever the word and the operands, a write of CMD ends with the first error that applies in the order
IllegalCommand, InvalidDimensions by `DimsOK`, InvalidDimensions by `Dims3OK` (COMPRESS), InvalidFrameBuffer, InvalidCropParameters
(CROP), and with none exactly when none applies; STATUS says which of the two. -/
def Obligations.FirstApplicableErrorIsReported : Prop :=
  ∀ (s : State) (v : Nat) (rest : List HostOp), s.script = .writeReg 0 v :: rest → v < 2 ^ 8 →
    ∃ t, step s = .next t ∧
      t.err =
        (if v ≠ 0x01 ∧ v ≠ 0x02 ∧ v ≠ 0x03 then .illegalCommand
        else if ¬(0 < s.width ∧ 0 < s.height ∧ s.width % 2 = 0 ∧ s.height % 2 = 0) then .invalidDimensions
        else if v = 0x01 ∧ ¬(s.width % 3 = 0 ∧ s.height % 3 = 0) then .invalidDimensions
        else if ¬(s.ylen = s.width * s.height ∧ s.uvlen = s.width * s.height / 2) then .invalidFrameBuffer
        else if v = 0x02 ∧ ¬(s.cropw < s.width ∧ s.croph < s.height ∧ s.cropw % 2 = 0 ∧ s.croph % 2 = 0) then
          .invalidCropParameters
        else .noError) ∧
      t.status = (if t.err = .noError then .done else .error)

/-- 60_exceptions.md R214: a write of CMD, of a legal word or not, that ends ERROR has zeroed the five output registers, set ERR to a code
from 1 to 4 and STATUS to 2, and changed nothing else: CMD keeps the word just written, the operands and every byte of every buffer
are as they were. That the step takes the operation off the script (notes/assumptions/3.md) and has set no free byte aside
(notes/assumptions/1.md) is said of the model's own fields. -/
def Obligations.ErrorSequenceChangesNothingElse : Prop :=
  ∀ (s t : State) (v : Nat) (rest : List HostOp), s.script = .writeReg 0 v :: rest → step s = .next t → t.status = .error →
    t.readReg .status = 2 ∧ 1 ≤ t.readReg .err ∧ t.readReg .err ≤ 4 ∧
    t = { s with
      cmd := BitVec.ofNat 8 v, script := rest, status := .error, err := t.err,
      owidth := 0, oheight := 0, oylen := 0, ouvlen := 0, orgblen := 0 }

/-- 60_exceptions.md R219, 10_state.md R39 (last sentence): no error is sticky. In every state that an error has left, whichever error it
was, every command whose checks pass runs to DONE and overwrites STATUS, ERR and the output registers. The last clause is one such
course from reset: a command put to the block straight after reset is rejected with InvalidDimensions, and the same block, once the
host has put a legal frame's sides and lengths in the operand registers, then runs TORGB to DONE. -/
def Obligations.ErrorIsNotSticky : Prop :=
  (∀ s : State, s.status = .error → 0 < s.width → 0 < s.height → s.width % 2 = 0 → s.height % 2 = 0 →
    s.ylen = s.width * s.height → s.uvlen = s.width * s.height / 2 →
    (s.width % 3 = 0 → s.height % 3 = 0 →
      ∃ t, exec .compress s = .next t ∧ t.status = .done ∧ t.err = .noError ∧ t.owidth = s.width / 3 ∧
        t.oheight = s.height / 3 ∧ t.oylen = s.width / 3 * (s.height / 3) ∧
        t.ouvlen = s.width / 3 * (s.height / 3) / 2 ∧ t.orgblen = 0) ∧
    (s.cropw < s.width → s.croph < s.height → s.cropw % 2 = 0 → s.croph % 2 = 0 →
      ∃ t, exec .crop s = .next t ∧ t.status = .done ∧ t.err = .noError ∧ t.owidth = s.width - s.cropw ∧
        t.oheight = s.height - s.croph ∧ t.oylen = (s.width - s.cropw) * (s.height - s.croph) ∧
        t.ouvlen = (s.width - s.cropw) * (s.height - s.croph) / 2 ∧ t.orgblen = 0) ∧
    ∃ t, exec .torgb s = .next t ∧ t.status = .done ∧ t.err = .noError ∧ t.owidth = 0 ∧ t.oheight = 0 ∧ t.oylen = 0 ∧
      t.ouvlen = 0 ∧ t.orgblen = 3 * s.width * s.height) ∧
  ∀ (i : Instr) (c : Config), ∃ t, exec i (State.resetOf c) = .next t ∧ t.status = .error ∧ t.err = .invalidDimensions ∧
    ∀ w h : Nat, 0 < w → 0 < h → w % 2 = 0 → h % 2 = 0 →
      ∃ u, exec .torgb { t with width := w, height := h, ylen := w * h, uvlen := w * h / 2 } = .next u ∧
        u.status = .done ∧ u.err = .noError ∧ u.orgblen = 3 * w * h

/-! ### Frames: what a command leaves as it was -/

/-- 10_state.md R36: whatever a command does, and whether it ends DONE or ERROR, it never writes CMD, the six operand registers, YIN or
UVIN. The last three clauses are about the model's own fields: a command changes neither the parameter (notes/assumptions/2.md) nor
the host's pending operations and what it has read (notes/assumptions/3.md). -/
def Obligations.EngineNeverWritesItsInputs : Prop :=
  ∀ (i : Instr) (s : State), ∃ t, exec i s = .next t ∧
    t.cmd = s.cmd ∧ t.width = s.width ∧ t.height = s.height ∧ t.cropw = s.cropw ∧ t.croph = s.croph ∧
    t.ylen = s.ylen ∧ t.uvlen = s.uvlen ∧ t.yin = s.yin ∧ t.uvin = s.uvin ∧
    t.cfg = s.cfg ∧ t.script = s.script ∧ t.returned = s.returned

/-- 20_memory.md R65, R78: the stores of COMPRESS and CROP leave every byte of YIN, UVIN and RGBOUT, and every byte of YOUT and UVOUT at
or above the new length registers, as it was; on ERROR those are 0, so no byte changes. That the buffer's list still holds an output
byte outside the valid extent is the model's (notes/assumptions/9.md): the statement is about the engine's stores, and not about what
the host reads there, which is a free byte (20_memory.md R64). -/
def Obligations.FrameCommandsWriteOnlyTheNewExtents : Prop :=
  ∀ (i : Instr) (s : State), i = .compress ∨ i = .crop → ∃ t, exec i s = .next t ∧
    (∀ a, Memory.read t.yin a = Memory.read s.yin a) ∧ (∀ a, Memory.read t.uvin a = Memory.read s.uvin a) ∧
    (∀ a, Memory.read t.rgbout a = Memory.read s.rgbout a) ∧
    (∀ a, t.oylen ≤ a → Memory.read t.yout a = Memory.read s.yout a) ∧
    (∀ a, t.ouvlen ≤ a → Memory.read t.uvout a = Memory.read s.uvout a)

/-- 20_memory.md R65, R78: the stores of TORGB leave every byte of YIN, UVIN, YOUT and UVOUT, and every byte of RGBOUT at or above the new
ORGBLEN, as it was; on ERROR that is 0, so no byte changes. That the buffer's list still holds an output byte outside the valid extent
is the model's (notes/assumptions/9.md): the statement is about the engine's stores, and not about what the host reads there, which is
a free byte (20_memory.md R64). -/
def Obligations.TorgbWritesOnlyTheNewExtent : Prop :=
  ∀ s : State, ∃ t, exec .torgb s = .next t ∧
    (∀ a, Memory.read t.yin a = Memory.read s.yin a) ∧ (∀ a, Memory.read t.uvin a = Memory.read s.uvin a) ∧
    (∀ a, Memory.read t.yout a = Memory.read s.yout a) ∧ (∀ a, Memory.read t.uvout a = Memory.read s.uvout a) ∧
    (∀ a, t.orgblen ≤ a → Memory.read t.rgbout a = Memory.read s.rgbout a)

/-- 20_memory.md R78, 41_compress.md R145, 43_torgb.md R181: a command that passes its checks stores each index of the new valid extents
exactly once, and no other index. That the list of stores has them in ascending order is the model's choice (notes/assumptions/7.md):
20_memory.md R77 does not fix the order, and `Obligations.StoreOrderIsNotObservable` says that it does not matter. -/
def Obligations.EachOutputIndexIsStoredOnce : Prop :=
  ∀ s : State, s.dimsOK = true →
    (s.dims3OK = true →
      (compressLumaStores s).map Prod.fst = List.range (s.width / 3 * (s.height / 3)) ∧
      (compressChromaStores s).map Prod.fst = List.range (s.width / 3 * (s.height / 3) / 2)) ∧
    (s.cropOK = true →
      (cropLumaStores s).map Prod.fst = List.range ((s.width - s.cropw) * (s.height - s.croph)) ∧
      (cropChromaStores s).map Prod.fst = List.range ((s.width - s.cropw) * (s.height - s.croph) / 2)) ∧
    (torgbStores s).map Prod.fst = List.range (3 * s.width * s.height)

/-- 20_memory.md R77: the order of a command's stores is not observable. On a buffer in canonical form (the model's own,
notes/assumptions/5.md), making the stores of any of the five loop nests in any other order gives the same buffer. -/
def Obligations.StoreOrderIsNotObservable : Prop :=
  ∀ (s : State) (m : Memory) (l : List Host.Cell), s.dimsOK = true → Memory.wf m →
    (s.dims3OK = true →
      (l.Perm (compressLumaStores s) → Memory.writeAll m l = Memory.writeAll m (compressLumaStores s)) ∧
      (l.Perm (compressChromaStores s) → Memory.writeAll m l = Memory.writeAll m (compressChromaStores s))) ∧
    (s.cropOK = true →
      (l.Perm (cropLumaStores s) → Memory.writeAll m l = Memory.writeAll m (cropLumaStores s)) ∧
      (l.Perm (cropChromaStores s) → Memory.writeAll m l = Memory.writeAll m (cropChromaStores s))) ∧
    (l.Perm (torgbStores s) → Memory.writeAll m l = Memory.writeAll m (torgbStores s))

/-! ### What an outcome depends on -/

/-- 10_state.md R37, R25, R31: the outcome of a command is a function of its operand registers and of the input bytes below YLEN and
UVLEN, and of nothing else: not of an earlier STATUS, ERR, output register or output byte, nor, for COMPRESS and TORGB, of CROPW
and CROPH. Two states that agree on those, with those bytes written, get the same STATUS, ERR, output registers and bytes of the
valid extents. -/
def Obligations.OutcomeDependsOnlyOnOperandsAndInputFrame : Prop :=
  ∀ (i : Instr) (s s' : State),
    s.width = s'.width → s.height = s'.height → s.ylen = s'.ylen → s.uvlen = s'.uvlen →
    (i = .crop → s.cropw = s'.cropw ∧ s.croph = s'.croph) →
    (∀ a < s.ylen, AgreeWritten s.yin s'.yin a) → (∀ a < s.uvlen, AgreeWritten s.uvin s'.uvin a) →
    ∃ t t', exec i s = .next t ∧ exec i s' = .next t' ∧
      t.status = t'.status ∧ t.err = t'.err ∧ t.owidth = t'.owidth ∧ t.oheight = t'.oheight ∧
      t.oylen = t'.oylen ∧ t.ouvlen = t'.ouvlen ∧ t.orgblen = t'.orgblen ∧
      (∀ a < t.oylen, Memory.read t.yout a = Memory.read t'.yout a) ∧
      (∀ a < t.ouvlen, Memory.read t.uvout a = Memory.read t'.uvout a) ∧
      (∀ a < t.orgblen, Memory.read t.rgbout a = Memory.read t'.rgbout a)

/-- 41_compress.md R140 (corner cases; vector V-C12): COMPRESS never reads a luma byte of a row or column `r` with `r mod 6 >= 2`, nor
a chroma byte of a column `j` with `j mod 6 >= 2` or of a row not a multiple of 3. Two states that agree on the other bytes get the
same STATUS, ERR, output registers and output bytes, whatever the skipped bytes hold. -/
def Obligations.CompressIgnoresSkippedSamples : Prop :=
  ∀ s s' : State,
    s.width = s'.width → s.height = s'.height → s.ylen = s'.ylen → s.uvlen = s'.uvlen →
    (∀ x y, x < s.width → y < s.height → x % 6 < 2 → y % 6 < 2 → AgreeWritten s.yin s'.yin (y * s.width + x)) →
    (∀ j cy, j < s.width → 2 * cy < s.height → j % 6 < 2 → cy % 3 = 0 → AgreeWritten s.uvin s'.uvin (cy * s.width + j)) →
    ∃ t t', exec .compress s = .next t ∧ exec .compress s' = .next t' ∧
      t.status = t'.status ∧ t.err = t'.err ∧ t.owidth = t'.owidth ∧ t.oheight = t'.oheight ∧
      t.oylen = t'.oylen ∧ t.ouvlen = t'.ouvlen ∧ t.orgblen = t'.orgblen ∧
      (∀ a < t.oylen, Memory.read t.yout a = Memory.read t'.yout a) ∧
      (∀ a < t.ouvlen, Memory.read t.uvout a = Memory.read t'.uvout a)

/-- 40_plane_indexer.md R119 (d): no command that passes its checks addresses a byte at or beyond the declared length of its plane. -/
def Obligations.SourceAddressesLieInsideThePlanes : Prop :=
  ∀ s : State, s.dimsOK = true → s.frameOK = true →
    (s.dims3OK = true →
      (∀ ox oy, ox < s.width / 3 → oy < s.height / 3 → yaddr (keptIndex ox) (keptIndex oy) s.width < s.ylen) ∧
      (∀ cx cy, cx < s.width / 3 / 2 → cy < s.height / 3 / 2 → uvByte (6 * cx + 1) (3 * cy) s.width < s.uvlen)) ∧
    (s.cropOK = true →
      (∀ ox oy, ox < s.width - s.cropw → oy < s.height - s.croph →
        yaddr (s.cropw / 2 + ox) (s.croph / 2 + oy) s.width < s.ylen) ∧
      (∀ b cy, b < s.width - s.cropw → s.croph / 4 + cy < (s.height - s.croph / 2) / 2 →
        uvByte (s.cropw / 2 + b) (s.croph / 4 + cy) s.width < s.uvlen)) ∧
    (∀ x y, x < s.width → y < s.height → yaddr x y s.width < s.ylen ∧ vaddr (x / 2) (y / 2) s.width < s.uvlen)

/-! ### Properties of the results -/

/-- 41_compress.md R142: the retained columns (or rows) of a side that is a multiple of 6 are those `c` with `c mod 6` in `{0, 1}`, in
ascending order. -/
def Obligations.KeptIndicesAreTwoOfEverySix : Prop :=
  ∀ w : Nat, w % 6 = 0 → (List.range (w / 3)).map keptIndex = (List.range w).filter (fun c => c % 6 < 2)

/-- 41_compress.md R147 (b), (d): COMPRESS of constant planes gives constant planes, with U still at the even and V at the odd bytes. -/
def Obligations.CompressKeepsConstantPlanes : Prop :=
  ∀ (s : State) (k u v : Byte), s.dimsOK = true → s.dims3OK = true → s.frameOK = true →
    (∀ a < s.ylen, Memory.read s.yin a = some k) →
    (∀ a < s.uvlen, Memory.read s.uvin a = some (if a % 2 = 0 then u else v)) →
    ∃ t, exec .compress s = .next t ∧ t.status = .done ∧
      (∀ a < t.oylen, Memory.read t.yout a = some k) ∧
      (∀ a < t.ouvlen, Memory.read t.uvout a = some (if a % 2 = 0 then u else v))

/-- 42_crop.md R165: for every legal crop of a legal height, the chroma window has `H'/2` rows, and starts at row `k` and ends before
row `H/2 - k` for `ch = 4k`, or `H/2 - k - 1` for `ch = 4k + 2`. -/
def Obligations.CropChromaWindowHasHalfTheRows : Prop :=
  ∀ s : State, s.height % 2 = 0 → s.croph < s.height → s.croph % 2 = 0 →
    s.cropChromaBottom - s.cropChromaTop = s.cropHeight / 2 ∧
    ∀ k, (s.croph = 4 * k → s.cropChromaTop = k ∧ s.cropChromaBottom = s.height / 2 - k) ∧
      (s.croph = 4 * k + 2 → s.cropChromaTop = k ∧ s.cropChromaBottom = s.height / 2 - k - 1)

/-- 42_crop.md R166: with `cw mod 4 = 0` output pair `cx` is input pair `cw/4 + cx`, the pair co-located with luma column
`cw/2 + 2*cx`; with `cw mod 4 = 2` its U byte is the V of input pair
`(cw/2 - 1)/2 + cx` and its V byte the U of the next pair. Neither is an error. -/
def Obligations.CropExchangesChromaOnOddMargins : Prop :=
  ∀ s : State, s.dimsOK = true → s.frameOK = true → s.cropOK = true →
    ∃ t, exec .crop s = .next t ∧ t.status = .done ∧ t.err = .noError ∧
      ∀ cx cy, 2 * cx < t.owidth → 2 * cy < t.oheight →
        (s.cropw % 4 = 0 →
          (s.cropw / 2 + 2 * cx) / 2 = s.cropw / 4 + cx ∧
          CopiedTo s.uvin (uaddr (s.cropw / 4 + cx) (s.croph / 4 + cy) s.width) t.uvout (uaddr cx cy t.owidth) ∧
          CopiedTo s.uvin (vaddr (s.cropw / 4 + cx) (s.croph / 4 + cy) s.width) t.uvout (vaddr cx cy t.owidth)) ∧
        (s.cropw % 4 = 2 →
          CopiedTo s.uvin (vaddr ((s.cropw / 2 - 1) / 2 + cx) (s.croph / 4 + cy) s.width) t.uvout (uaddr cx cy t.owidth) ∧
          CopiedTo s.uvin (uaddr ((s.cropw / 2 - 1) / 2 + cx + 1) (s.croph / 4 + cy) s.width) t.uvout
            (vaddr cx cy t.owidth))

/-- 42_crop.md R169 (b), (d): CROP is symmetric, so the centre pixel stays the centre pixel; and a crop by nothing copies the frame. -/
def Obligations.CropKeepsTheCentreAndCanCopyTheFrame : Prop :=
  ∀ s : State, s.dimsOK = true → s.frameOK = true → s.cropOK = true →
    ∃ t, exec .crop s = .next t ∧ t.status = .done ∧
      CopiedTo s.yin (s.height / 2 * s.width + s.width / 2) t.yout (t.oheight / 2 * t.owidth + t.owidth / 2) ∧
      (s.cropw = 0 → s.croph = 0 →
        t.owidth = s.width ∧ t.oheight = s.height ∧ t.oylen = s.ylen ∧ t.ouvlen = s.uvlen ∧
        (∀ a < s.ylen, CopiedTo s.yin a t.yout a) ∧ (∀ a < s.uvlen, CopiedTo s.uvin a t.uvout a))

/-- 70_reset_and_hazards.md R251: the output of a DONE COMPRESS or CROP is a conforming frame. When the host copies its sides and
lengths to the operand registers, TORGB and a CROP by nothing run to DONE. -/
def Obligations.OutputFramesCanBeChained : Prop :=
  ∀ (i : Instr) (s t u : State), i = .compress ∨ i = .crop → exec i s = .next t → t.status = .done →
    u.width = t.owidth → u.height = t.oheight → u.ylen = t.oylen → u.uvlen = t.ouvlen →
    (∃ v, exec .torgb u = .next v ∧ v.status = .done) ∧
    (u.cropw = 0 → u.croph = 0 → ∃ v, exec .crop u = .next v ∧ v.status = .done)

/-- 43_torgb.md R187: over all samples the scaled intermediates lie in the stated ranges, which fit a signed 30-bit integer, and the
quotients before the clamp lie in -227 to 480. -/
def Obligations.ColourIntermediatesLieInTheStatedRanges : Prop :=
  ∀ y u v : Byte,
    (-179456000 ≤ redNum y v ∧ redNum y v ≤ 433054000) ∧
    (-134400544 ≤ greenNum y u v ∧ greenNum y u v ≤ 390458816) ∧
    (-226816000 ≤ blueNum y u ∧ blueNum y u ≤ 480044000) ∧
    ∀ n ∈ [redNum y v, greenNum y u v, blueNum y u],
      (-(2 : Int) ^ 29 ≤ n ∧ n < 2 ^ 29) ∧ (-227 ≤ n / 1000000 ∧ n / 1000000 ≤ 480)

/-- 43_torgb.md R186: a channel's byte is the real value `n / 1000000` clamped to 0..255 and then truncated: 0 below 0, 255 from 255
on, and between them the integer part. -/
def Obligations.ChannelIsClampedThenTruncated : Prop :=
  ∀ n : Int,
    (n < 0 → channel n = 0#8) ∧ (255000000 ≤ n → channel n = 255#8) ∧
    (0 ≤ n → n < 255000000 →
      1000000 * ((channel n).toNat : Int) ≤ n ∧ n < 1000000 * (((channel n).toNat : Int) + 1))

/-- 43_torgb.md R180 (corner cases), R189 (b): with `U = V = 128` every channel is the luma sample, with no rounding; so `Y = 16` gives
16 and not black (R191). -/
def Obligations.NeutralChromaGivesGrey : Prop :=
  ∀ y : Byte, channel (redNum y 128#8) = y ∧ channel (greenNum y 128#8 128#8) = y ∧ channel (blueNum y 128#8) = y

/-- 43_torgb.md R190: where the exact value of a channel is an integer. Red only with `V = 128`, blue only with `U = 128`, green only for
the three chroma pairs named. -/
def Obligations.ExactChannelValuesAreRare : Prop :=
  ∀ y u v : Byte,
    (redNum y v % 1000000 = 0 ↔ v = 128#8) ∧ (blueNum y u % 1000000 = 0 ↔ u = 128#8) ∧
    (greenNum y u v % 1000000 = 0 ↔
      (u = 128#8 ∧ v = 128#8) ∨ (u = 28#8 ∧ v = 228#8) ∨ (u = 228#8 ∧ v = 28#8))

/-! ### Buffers -/

/-- 00_scope.md R11: a byte written to a buffer is read back, and every other byte reads as before. The last clause, that the canonical
form is kept, is the model's own (notes/assumptions/5.md). -/
def Obligations.BufferReadAfterWrite : Prop :=
  ∀ (m : Memory) (a b : Nat) (v : Byte),
    Memory.read (Memory.write m a v) b = (if b = a then some v else Memory.read m b) ∧
    (Memory.wf m → Memory.wf (Memory.write m a v))

/-- Two buffers in canonical form that read alike at every index are equal data. The canonical form is the model's own
(notes/assumptions/5.md). -/
def Obligations.BuffersThatReadAlikeAreEqual : Prop :=
  ∀ m m' : Memory, Memory.wf m → Memory.wf m' → (∀ a, Memory.read m a = Memory.read m' a) → m = m'

/-! ### The host's operations -/

/-- 10_state.md R33, with the numbers and widths of the table of R22 written out. A write to an RO register, 1, 2 or 9 to 13, or to a
number from 14 on changes no state; a write to an RW register other than CMD, 3 to 8, stores the value and has no other effect; a
read of any register 0 to 13 returns its value, and of a number from 14 on 0, with no side effect. What every operation does to the
host's own record, taking itself off the script and noting what it returned, is the model's (notes/assumptions/3.md). -/
def Obligations.RegisterAccessRights : Prop :=
  ∀ (s : State) (rest : List HostOp) (no v : Nat),
    (s.script = .writeReg no v :: rest →
      (∀ p ∈ [(1, 2), (2, 3), (9, s.cfg.n), (10, s.cfg.n), (11, 2 * s.cfg.n), (12, 2 * s.cfg.n), (13, 2 * s.cfg.n + 2)],
        no = p.1 → v < 2 ^ p.2 → step s = .next { s with script := rest }) ∧
      (14 ≤ no → step s = .next { s with script := rest }) ∧
      (no = 3 → v < 2 ^ s.cfg.n → step s = .next { s with script := rest, width := v }) ∧
      (no = 4 → v < 2 ^ s.cfg.n → step s = .next { s with script := rest, height := v }) ∧
      (no = 5 → v < 2 ^ s.cfg.n → step s = .next { s with script := rest, cropw := v }) ∧
      (no = 6 → v < 2 ^ s.cfg.n → step s = .next { s with script := rest, croph := v }) ∧
      (no = 7 → v < 2 ^ (2 * s.cfg.n) → step s = .next { s with script := rest, ylen := v }) ∧
      (no = 8 → v < 2 ^ (2 * s.cfg.n) → step s = .next { s with script := rest, uvlen := v })) ∧
    (s.script = .readReg no :: rest →
      (∀ p ∈ [(0, s.cmd.toNat), (1, statusNumber s.status), (2, errNumber s.err), (3, s.width), (4, s.height), (5, s.cropw),
          (6, s.croph), (7, s.ylen), (8, s.uvlen), (9, s.owidth), (10, s.oheight), (11, s.oylen), (12, s.ouvlen),
          (13, s.orgblen)],
        no = p.1 → step s = .next { s with script := rest, returned := s.returned ++ [.reg no p.2] }) ∧
      (14 ≤ no → step s = .next { s with script := rest, returned := s.returned ++ [.reg no 0] }))

/-- 20_memory.md R60, R66: a host write to YIN or UVIN stores the byte and changes no other byte and no register; a host write to an
output buffer is ignored. That the step takes the operation off the script, and leaves the parameter, what has been read and the count
of draws, is said of the model's own fields (notes/assumptions/1.md, 2.md, 3.md). -/
def Obligations.HostBufferWrites : Prop :=
  ∀ (s : State) (rest : List HostOp) (b : Buffer) (a : Nat) (v : Byte),
    s.script = .writeMem b a v :: rest → a < b.capacity s.cfg →
    (b = .yin ∨ b = .uvin →
      ∃ t, step s = .next t ∧ Memory.read (t.buffer b) a = some v ∧
        (∀ a', a' ≠ a → Memory.read (t.buffer b) a' = Memory.read (s.buffer b) a') ∧
        (∀ b', b' ≠ b → t.buffer b' = s.buffer b') ∧ (∀ r, t.readReg r = s.readReg r) ∧
        t.cfg = s.cfg ∧ t.script = rest ∧ t.returned = s.returned ∧ t.draws = s.draws) ∧
    (b = .yout ∨ b = .uvout ∨ b = .rgbout → step s = .next { s with script := rest })

/-- 20_memory.md R64, R66: a host read of a buffer returns the byte written there, for an output buffer below its length register,
and has no side effect on a register or a buffer. Elsewhere it returns some byte, of which nothing is said (a free value,
notes/assumptions/1.md). The script, the noted result and the count of draws are the model's own fields (notes/assumptions/1.md,
3.md). -/
def Obligations.HostBufferReads : Prop :=
  ∀ (s : State) (rest : List HostOp) (b : Buffer) (a : Nat),
    s.script = .readMem b a :: rest → a < b.capacity s.cfg →
    ∃ x : Byte,
      step s = .next { s with script := rest, returned := s.returned ++ [.byte b a x], draws := s.draws + 1 } ∧
      ((b = .yout → a < s.oylen) → (b = .uvout → a < s.ouvlen) → (b = .rgbout → a < s.orgblen) →
        ∀ v, Memory.read (s.buffer b) a = some v → x = v)

/-- 10_state.md R39: after reset every register reads 0, which for STATUS is IDLE and for ERR is None; and a command issued straight
after reset, with any value of the parameter, is rejected with InvalidDimensions. -/
def Obligations.ResetValuesOfTheRegisters : Prop :=
  (∀ r : Reg, State.reset.readReg r = 0) ∧ State.reset.status = .idle ∧ State.reset.err = .noError ∧
    ∀ (c : Config) (i : Instr), (∀ r : Reg, (State.resetOf c).readReg r = 0) ∧
      exec i (State.resetOf c) = .next ((State.resetOf c).raise .invalidDimensions)

/-- 70_reset_and_hazards.md R240: the reset event puts every register at 0, leaves no byte of any buffer with a value, and runs
nothing. That the host's remaining operations, what it has read and the count of draws stay is the model's
(notes/assumptions/3.md). -/
def Obligations.ResetEventClearsTheBlock : Prop :=
  ∀ (s : State) (rest : List HostOp), s.script = .reset :: rest →
    ∃ t, step s = .next t ∧ (∀ r : Reg, t.readReg r = 0) ∧ (∀ b a, Memory.read (t.buffer b) a = none) ∧
      t.cfg = s.cfg ∧ t.script = rest ∧ t.returned = s.returned ∧ t.draws = s.draws

/-- 10_state.md R22, R34, 20_memory.md R62, with the widths and capacities written out: an operation that no port can carry, by a value
of `2^width` or more or an index at or above the capacity, stops the model by name; every other operation makes a step. That the
model stops there is its own convention (notes/assumptions/6.md), and so is the script that the step shortens
(notes/assumptions/3.md). The last clause says that `HostOp.wf` names just the operations that make a step. -/
def Obligations.OnlyInexpressibleOperationsStop : Prop :=
  ∀ (s : State) (op : HostOp) (rest : List HostOp), s.script = op :: rest →
    (∀ p ∈ [(0, 8), (1, 2), (2, 3), (3, s.cfg.n), (4, s.cfg.n), (5, s.cfg.n), (6, s.cfg.n), (7, 2 * s.cfg.n),
        (8, 2 * s.cfg.n), (9, s.cfg.n), (10, s.cfg.n), (11, 2 * s.cfg.n), (12, 2 * s.cfg.n), (13, 2 * s.cfg.n + 2)],
      ∀ v, op = .writeReg p.1 v →
        (v < 2 ^ p.2 → MakesAStep s rest) ∧ (2 ^ p.2 ≤ v → step s = .fault (.valueWiderThanPort p.1 v))) ∧
    (∀ no v, op = .writeReg no v → 14 ≤ no → MakesAStep s rest) ∧
    (∀ no, op = .readReg no → MakesAStep s rest) ∧
    (∀ p ∈ [(Buffer.yin, 2 ^ (2 * s.cfg.n)), (.uvin, 2 ^ (2 * s.cfg.n - 1)), (.yout, 2 ^ (2 * s.cfg.n)),
        (.uvout, 2 ^ (2 * s.cfg.n - 1)), (.rgbout, 3 * 2 ^ (2 * s.cfg.n))],
      ∀ a v, op = .writeMem p.1 a v ∨ op = .readMem p.1 a →
        (a < p.2 → MakesAStep s rest) ∧ (p.2 ≤ a → step s = .fault (.indexBeyondCapacity p.1 a))) ∧
    (op = .reset → MakesAStep s rest) ∧
    (op.wf s.cfg = true ↔ MakesAStep s rest)

/-! ### Whole-machine rules -/

/-- The legal states (`State.Inv`): the state right after reset is one, for every allowed value of the parameter (00_scope.md R5). That
`State.reset` has the reference value `N = 16` is the model's choice (notes/assumptions/2.md). -/
def Obligations.ResetStateIsLegal : Prop :=
  State.reset.cfg.n = 16 ∧ State.reset.Inv ∧ ∀ c : Config, c.wf → (State.resetOf c).Inv

/-- From every legal state, every step that answers a next state answers a legal one: every register still fits its width, every buffer
is within its capacity (20_memory.md R62) and in canonical form, `ERR = 0` exactly when STATUS is IDLE or DONE (10_state.md R28), the
output registers have one of the shapes of 10_state.md R29, and every byte of every valid extent has been written (20_memory.md R64,
R78). The canonical form is the model's (notes/assumptions/5.md), and that a register is a natural that fits is how it represents one
(notes/assumptions/2.md). -/
def Obligations.EveryStepKeepsTheStateLegal : Prop :=
  ∀ s t : State, s.Inv → step s = .next t → t.Inv

/-- 70_reset_and_hazards.md R257, R248: a run of a finite host script whose operations the ports can carry never stops, from any state,
legal or not: after `k` steps the first `k` operations are done and the others are left, and what was read before is kept. That the
script and what was read are fields of the state, and that a step is one operation, is the model's (notes/assumptions/3.md). -/
def Obligations.HostScriptsRunToTheirEnd : Prop :=
  ∀ (k : Nat) (s : State), s.ScriptOK →
    ∃ t : State, Sys2Proof.core.run k s = .next t ∧ t.ScriptOK ∧ t.script = s.script.drop k ∧ t.cfg = s.cfg ∧
      s.returned <+: t.returned

/-- 60_exceptions.md R227: an idle block keeps all its state. That a step with no host operation pending is such an idle moment is the
model's convention (notes/assumptions/3.md). -/
def Obligations.IdleBlockKeepsItsState : Prop :=
  ∀ s : State, s.script = [] → step s = .next s

/-- 10_state.md R27, 70_reset_and_hazards.md R241: STATUS never returns to IDLE except by reset. -/
def Obligations.IdleOnlyAfterReset : Prop :=
  ∀ s t : State, step s = .next t → t.status = .idle →
    s.status = .idle ∨ ∃ rest, s.script = .reset :: rest

/-- 10_state.md R23, R27, R28, R29; 20_memory.md R60, R66; vector V-H5: only a write of CMD and the reset event change CMD, STATUS, ERR, an
output register or a byte of an output buffer. -/
def Obligations.OnlyCommandsAndResetChangeOutputs : Prop :=
  ∀ s t : State, step s = .next t → (∀ v rest, s.script ≠ .writeReg 0 v :: rest) → (∀ rest, s.script ≠ .reset :: rest) →
    t.cmd = s.cmd ∧ t.status = s.status ∧ t.err = s.err ∧ t.owidth = s.owidth ∧ t.oheight = s.oheight ∧ t.oylen = s.oylen ∧
    t.ouvlen = s.ouvlen ∧ t.orgblen = s.orgblen ∧ t.yout = s.yout ∧ t.uvout = s.uvout ∧ t.rgbout = s.rgbout

/-! ### Pseudo-instructions -/

/-- 30_encoding.md R97: `compress(f)`, for every conforming frame value with sides multiples of 3 that the registers can hold, in every
state: the host reads DONE, the sides and lengths of the decimated frame, and the bytes of `f` that 41_compress.md R142 and R143
retain, in row-major order. What the host reads is the model's `State.returned` (notes/assumptions/3.md, 10.md). -/
def Obligations.CallOfCompressReturnsTheDecimatedFrame : Prop :=
  ∀ (f : Frame) (s : State) (w' h' : Nat), f.Conforming s.cfg → f.w = 3 * w' → f.h = 3 * h' →
    ∃ t, (Pseudo.compress f).run s = .next t ∧ t.status = .done ∧ t.script = s.script ∧
      t.returned = s.returned ++
        ([.reg 1 1, .reg 9 w', .reg 10 h', .reg 11 (w' * h'), .reg 12 (w' * h' / 2)] ++
        (List.range (w' * h')).map (fun a => .byte .yout a
          (f.y.getD ((6 * (a / w' / 2) + a / w' % 2) * f.w + (6 * (a % w' / 2) + a % w' % 2)) 0#8)) ++
        (List.range (w' * h' / 2)).map (fun a => .byte .uvout a
          (f.uv.getD (3 * (a / w') * f.w + (6 * (a % w' / 2) + a % w' % 2)) 0#8)))

/-- 30_encoding.md R97: `crop(f, cw, ch)`, for every conforming frame value that the registers can hold and legal crop amounts, in every
state: the host reads DONE, the sides and lengths of the window, and the bytes of `f` in the windows of 42_crop.md R163 to R165, in
row-major order. What the host reads is the model's `State.returned` (notes/assumptions/3.md, 10.md). -/
def Obligations.CallOfCropReturnsTheWindow : Prop :=
  ∀ (f : Frame) (s : State) (cw ch w' h' : Nat), f.Conforming s.cfg → 0 < w' → 0 < h' → f.w = w' + cw → f.h = h' + ch →
    cw % 2 = 0 → ch % 2 = 0 →
    ∃ t, (Pseudo.crop f cw ch).run s = .next t ∧ t.status = .done ∧ t.script = s.script ∧
      t.returned = s.returned ++
        ([.reg 1 1, .reg 9 w', .reg 10 h', .reg 11 (w' * h'), .reg 12 (w' * h' / 2)] ++
        (List.range (w' * h')).map (fun a => .byte .yout a (f.y.getD ((ch / 2 + a / w') * f.w + (cw / 2 + a % w')) 0#8)) ++
        (List.range (w' * h' / 2)).map (fun a => .byte .uvout a (f.uv.getD ((ch / 4 + a / w') * f.w + (cw / 2 + a % w')) 0#8)))

/-- 30_encoding.md R97: `toRGB(f)`, for every conforming frame value that the registers can hold, in every state: the host reads DONE, the
length `3*w*h`, and for byte `a` the channel `a mod 3` of pixel `a div 3`, converted by 43_torgb.md R184 and R186 from the bytes of `f`
that 43_torgb.md R182 names. What the host reads is the model's `State.returned` (notes/assumptions/3.md, 10.md). -/
def Obligations.CallOfTorgbReturnsTheConvertedPixels : Prop :=
  ∀ (f : Frame) (s : State), f.Conforming s.cfg →
    ∃ t, (Pseudo.toRGB f).run s = .next t ∧ t.status = .done ∧ t.script = s.script ∧
      t.returned = s.returned ++
        ([.reg 1 1, .reg 13 (3 * f.w * f.h)] ++
        (List.range (3 * f.w * f.h)).map (fun a => .byte .rgbout a
          (let x := a / 3 % f.w
           let row := a / 3 / f.w
           let y := f.y.getD (row * f.w + x) 0#8
           let u := f.uv.getD (row / 2 * f.w + 2 * (x / 2)) 0#8
           let v := f.uv.getD (row / 2 * f.w + 2 * (x / 2) + 1) 0#8
           if a % 3 = 0 then channel (redNum y v) else if a % 3 = 1 then channel (greenNum y u v)
           else channel (blueNum y u))))

/-- 30_encoding.md R97, 60_exceptions.md R212, R216: the three calls on a frame value that the ports can carry and that the command
rejects: the host reads STATUS 2 and the code of the first error that applies, and nothing else. What the host reads is the model's
`State.returned` (notes/assumptions/3.md, 10.md). -/
def Obligations.CallsReportTheFirstError : Prop :=
  ∀ (f : Frame) (s : State) (cw ch : Nat), f.Fits s.cfg → cw < 2 ^ s.cfg.n → ch < 2 ^ s.cfg.n →
    (¬f.EvenSides →
      ReportsError (.compress f) s 1 ∧ ReportsError (.crop f cw ch) s 1 ∧ ReportsError (.toRGB f) s 1) ∧
    (f.EvenSides → ¬(f.w % 3 = 0 ∧ f.h % 3 = 0) → ReportsError (.compress f) s 1) ∧
    (f.EvenSides → ¬f.PlaneLengths →
      (f.w % 3 = 0 → f.h % 3 = 0 → ReportsError (.compress f) s 3) ∧ ReportsError (.crop f cw ch) s 3 ∧
        ReportsError (.toRGB f) s 3) ∧
    (f.EvenSides → f.PlaneLengths → ¬(cw < f.w ∧ ch < f.h ∧ cw % 2 = 0 ∧ ch % 2 = 0) → ReportsError (.crop f cw ch) s 2)

/-- 30_encoding.md R97, 70_reset_and_hazards.md R251: `CHAIN` puts the output frame in the place of the input frame: its sides and lengths
in the four operand registers and its bytes at the same indices of YIN and UVIN; STATUS and the output frame stay. The premise
`State.Inv` is the invariant of `Obligations.EveryStepKeepsTheStateLegal`. -/
def Obligations.ChainLoadsTheOutputFrame : Prop :=
  ∀ s : State, s.Inv →
    ∃ t, Pseudo.chain.run s = .next t ∧ t.script = s.script ∧ t.status = s.status ∧
      t.width = s.owidth ∧ t.height = s.oheight ∧ t.ylen = s.oylen ∧ t.uvlen = s.ouvlen ∧
      (∀ a < s.oylen, Memory.read t.yin a = Memory.read s.yout a) ∧
      (∀ a < s.ouvlen, Memory.read t.uvin a = Memory.read s.uvout a) ∧
      t.owidth = s.owidth ∧ t.oheight = s.oheight ∧ t.oylen = s.oylen ∧ t.ouvlen = s.ouvlen ∧
      t.yout = s.yout ∧ t.uvout = s.uvout
end

