-- ==== Sys2Proof/Laws/State.lean ====
section
/-! SUPPORT. What each update of the state leaves in each field, true by unfolding, so that no later proof unfolds an update. -/

namespace Sys2Proof.Machine

variable (s : State)

/-! ### `State.complete` -/

@[simp] theorem State.complete_cfg (ow oh oy ouv orgb : Nat) : (s.complete ow oh oy ouv orgb).cfg = s.cfg := rfl
@[simp] theorem State.complete_cmd (ow oh oy ouv orgb : Nat) : (s.complete ow oh oy ouv orgb).cmd = s.cmd := rfl
@[simp] theorem State.complete_status (ow oh oy ouv orgb : Nat) : (s.complete ow oh oy ouv orgb).status = .done := rfl
@[simp] theorem State.complete_err (ow oh oy ouv orgb : Nat) : (s.complete ow oh oy ouv orgb).err = .noError := rfl
@[simp] theorem State.complete_width (ow oh oy ouv orgb : Nat) : (s.complete ow oh oy ouv orgb).width = s.width := rfl
@[simp] theorem State.complete_height (ow oh oy ouv orgb : Nat) : (s.complete ow oh oy ouv orgb).height = s.height := rfl
@[simp] theorem State.complete_cropw (ow oh oy ouv orgb : Nat) : (s.complete ow oh oy ouv orgb).cropw = s.cropw := rfl
@[simp] theorem State.complete_croph (ow oh oy ouv orgb : Nat) : (s.complete ow oh oy ouv orgb).croph = s.croph := rfl
@[simp] theorem State.complete_ylen (ow oh oy ouv orgb : Nat) : (s.complete ow oh oy ouv orgb).ylen = s.ylen := rfl
@[simp] theorem State.complete_uvlen (ow oh oy ouv orgb : Nat) : (s.complete ow oh oy ouv orgb).uvlen = s.uvlen := rfl
@[simp] theorem State.complete_owidth (ow oh oy ouv orgb : Nat) : (s.complete ow oh oy ouv orgb).owidth = ow := rfl
@[simp] theorem State.complete_oheight (ow oh oy ouv orgb : Nat) : (s.complete ow oh oy ouv orgb).oheight = oh := rfl
@[simp] theorem State.complete_oylen (ow oh oy ouv orgb : Nat) : (s.complete ow oh oy ouv orgb).oylen = oy := rfl
@[simp] theorem State.complete_ouvlen (ow oh oy ouv orgb : Nat) : (s.complete ow oh oy ouv orgb).ouvlen = ouv := rfl
@[simp] theorem State.complete_orgblen (ow oh oy ouv orgb : Nat) : (s.complete ow oh oy ouv orgb).orgblen = orgb := rfl
@[simp] theorem State.complete_yin (ow oh oy ouv orgb : Nat) : (s.complete ow oh oy ouv orgb).yin = s.yin := rfl
@[simp] theorem State.complete_uvin (ow oh oy ouv orgb : Nat) : (s.complete ow oh oy ouv orgb).uvin = s.uvin := rfl
@[simp] theorem State.complete_yout (ow oh oy ouv orgb : Nat) : (s.complete ow oh oy ouv orgb).yout = s.yout := rfl
@[simp] theorem State.complete_uvout (ow oh oy ouv orgb : Nat) : (s.complete ow oh oy ouv orgb).uvout = s.uvout := rfl
@[simp] theorem State.complete_rgbout (ow oh oy ouv orgb : Nat) : (s.complete ow oh oy ouv orgb).rgbout = s.rgbout := rfl
@[simp] theorem State.complete_script (ow oh oy ouv orgb : Nat) : (s.complete ow oh oy ouv orgb).script = s.script := rfl
@[simp] theorem State.complete_returned (ow oh oy ouv orgb : Nat) : (s.complete ow oh oy ouv orgb).returned = s.returned := rfl
@[simp] theorem State.complete_draws (ow oh oy ouv orgb : Nat) : (s.complete ow oh oy ouv orgb).draws = s.draws := rfl

/-! ### `State.raise` -/

@[simp] theorem State.raise_cfg (e : ErrCode) : (s.raise e).cfg = s.cfg := rfl
@[simp] theorem State.raise_cmd (e : ErrCode) : (s.raise e).cmd = s.cmd := rfl
@[simp] theorem State.raise_status (e : ErrCode) : (s.raise e).status = .error := rfl
@[simp] theorem State.raise_err (e : ErrCode) : (s.raise e).err = e := rfl
@[simp] theorem State.raise_width (e : ErrCode) : (s.raise e).width = s.width := rfl
@[simp] theorem State.raise_height (e : ErrCode) : (s.raise e).height = s.height := rfl
@[simp] theorem State.raise_cropw (e : ErrCode) : (s.raise e).cropw = s.cropw := rfl
@[simp] theorem State.raise_croph (e : ErrCode) : (s.raise e).croph = s.croph := rfl
@[simp] theorem State.raise_ylen (e : ErrCode) : (s.raise e).ylen = s.ylen := rfl
@[simp] theorem State.raise_uvlen (e : ErrCode) : (s.raise e).uvlen = s.uvlen := rfl
@[simp] theorem State.raise_owidth (e : ErrCode) : (s.raise e).owidth = 0 := rfl
@[simp] theorem State.raise_oheight (e : ErrCode) : (s.raise e).oheight = 0 := rfl
@[simp] theorem State.raise_oylen (e : ErrCode) : (s.raise e).oylen = 0 := rfl
@[simp] theorem State.raise_ouvlen (e : ErrCode) : (s.raise e).ouvlen = 0 := rfl
@[simp] theorem State.raise_orgblen (e : ErrCode) : (s.raise e).orgblen = 0 := rfl
@[simp] theorem State.raise_yin (e : ErrCode) : (s.raise e).yin = s.yin := rfl
@[simp] theorem State.raise_uvin (e : ErrCode) : (s.raise e).uvin = s.uvin := rfl
@[simp] theorem State.raise_yout (e : ErrCode) : (s.raise e).yout = s.yout := rfl
@[simp] theorem State.raise_uvout (e : ErrCode) : (s.raise e).uvout = s.uvout := rfl
@[simp] theorem State.raise_rgbout (e : ErrCode) : (s.raise e).rgbout = s.rgbout := rfl
@[simp] theorem State.raise_script (e : ErrCode) : (s.raise e).script = s.script := rfl
@[simp] theorem State.raise_returned (e : ErrCode) : (s.raise e).returned = s.returned := rfl
@[simp] theorem State.raise_draws (e : ErrCode) : (s.raise e).draws = s.draws := rfl

/-! ### `State.drew` -/

@[simp] theorem State.drew_cfg (k : Nat) : (s.drew k).cfg = s.cfg := rfl
@[simp] theorem State.drew_cmd (k : Nat) : (s.drew k).cmd = s.cmd := rfl
@[simp] theorem State.drew_status (k : Nat) : (s.drew k).status = s.status := rfl
@[simp] theorem State.drew_err (k : Nat) : (s.drew k).err = s.err := rfl
@[simp] theorem State.drew_width (k : Nat) : (s.drew k).width = s.width := rfl
@[simp] theorem State.drew_height (k : Nat) : (s.drew k).height = s.height := rfl
@[simp] theorem State.drew_cropw (k : Nat) : (s.drew k).cropw = s.cropw := rfl
@[simp] theorem State.drew_croph (k : Nat) : (s.drew k).croph = s.croph := rfl
@[simp] theorem State.drew_ylen (k : Nat) : (s.drew k).ylen = s.ylen := rfl
@[simp] theorem State.drew_uvlen (k : Nat) : (s.drew k).uvlen = s.uvlen := rfl
@[simp] theorem State.drew_owidth (k : Nat) : (s.drew k).owidth = s.owidth := rfl
@[simp] theorem State.drew_oheight (k : Nat) : (s.drew k).oheight = s.oheight := rfl
@[simp] theorem State.drew_oylen (k : Nat) : (s.drew k).oylen = s.oylen := rfl
@[simp] theorem State.drew_ouvlen (k : Nat) : (s.drew k).ouvlen = s.ouvlen := rfl
@[simp] theorem State.drew_orgblen (k : Nat) : (s.drew k).orgblen = s.orgblen := rfl
@[simp] theorem State.drew_yin (k : Nat) : (s.drew k).yin = s.yin := rfl
@[simp] theorem State.drew_uvin (k : Nat) : (s.drew k).uvin = s.uvin := rfl
@[simp] theorem State.drew_yout (k : Nat) : (s.drew k).yout = s.yout := rfl
@[simp] theorem State.drew_uvout (k : Nat) : (s.drew k).uvout = s.uvout := rfl
@[simp] theorem State.drew_rgbout (k : Nat) : (s.drew k).rgbout = s.rgbout := rfl
@[simp] theorem State.drew_script (k : Nat) : (s.drew k).script = s.script := rfl
@[simp] theorem State.drew_returned (k : Nat) : (s.drew k).returned = s.returned := rfl
@[simp] theorem State.drew_draws (k : Nat) : (s.drew k).draws = s.draws + k := rfl

/-! ### `State.setBuffer`: a buffer is read back through `State.buffer` -/

@[simp] theorem State.setBuffer_cfg (b : Buffer) (m : Memory) : (s.setBuffer b m).cfg = s.cfg := by
  cases b <;> rfl
@[simp] theorem State.setBuffer_cmd (b : Buffer) (m : Memory) : (s.setBuffer b m).cmd = s.cmd := by
  cases b <;> rfl
@[simp] theorem State.setBuffer_status (b : Buffer) (m : Memory) : (s.setBuffer b m).status = s.status := by
  cases b <;> rfl
@[simp] theorem State.setBuffer_err (b : Buffer) (m : Memory) : (s.setBuffer b m).err = s.err := by
  cases b <;> rfl
@[simp] theorem State.setBuffer_width (b : Buffer) (m : Memory) : (s.setBuffer b m).width = s.width := by
  cases b <;> rfl
@[simp] theorem State.setBuffer_height (b : Buffer) (m : Memory) : (s.setBuffer b m).height = s.height := by
  cases b <;> rfl
@[simp] theorem State.setBuffer_cropw (b : Buffer) (m : Memory) : (s.setBuffer b m).cropw = s.cropw := by
  cases b <;> rfl
@[simp] theorem State.setBuffer_croph (b : Buffer) (m : Memory) : (s.setBuffer b m).croph = s.croph := by
  cases b <;> rfl
@[simp] theorem State.setBuffer_ylen (b : Buffer) (m : Memory) : (s.setBuffer b m).ylen = s.ylen := by
  cases b <;> rfl
@[simp] theorem State.setBuffer_uvlen (b : Buffer) (m : Memory) : (s.setBuffer b m).uvlen = s.uvlen := by
  cases b <;> rfl
@[simp] theorem State.setBuffer_owidth (b : Buffer) (m : Memory) : (s.setBuffer b m).owidth = s.owidth := by
  cases b <;> rfl
@[simp] theorem State.setBuffer_oheight (b : Buffer) (m : Memory) : (s.setBuffer b m).oheight = s.oheight := by
  cases b <;> rfl
@[simp] theorem State.setBuffer_oylen (b : Buffer) (m : Memory) : (s.setBuffer b m).oylen = s.oylen := by
  cases b <;> rfl
@[simp] theorem State.setBuffer_ouvlen (b : Buffer) (m : Memory) : (s.setBuffer b m).ouvlen = s.ouvlen := by
  cases b <;> rfl
@[simp] theorem State.setBuffer_orgblen (b : Buffer) (m : Memory) : (s.setBuffer b m).orgblen = s.orgblen := by
  cases b <;> rfl
@[simp] theorem State.setBuffer_script (b : Buffer) (m : Memory) : (s.setBuffer b m).script = s.script := by
  cases b <;> rfl
@[simp] theorem State.setBuffer_returned (b : Buffer) (m : Memory) : (s.setBuffer b m).returned = s.returned := by
  cases b <;> rfl
@[simp] theorem State.setBuffer_draws (b : Buffer) (m : Memory) : (s.setBuffer b m).draws = s.draws := by
  cases b <;> rfl

@[simp] theorem State.setBuffer_buffer_same (b : Buffer) (m : Memory) : (s.setBuffer b m).buffer b = m := by
  cases b <;> rfl

theorem State.setBuffer_buffer_other (b c : Buffer) (m : Memory) (h : c ≠ b) :
    (s.setBuffer b m).buffer c = s.buffer c := by
  cases b <;> cases c <;> first | rfl | exact absurd rfl h

@[simp] theorem State.buffer_yin : s.buffer .yin = s.yin := rfl
@[simp] theorem State.buffer_uvin : s.buffer .uvin = s.uvin := rfl
@[simp] theorem State.buffer_yout : s.buffer .yout = s.yout := rfl
@[simp] theorem State.buffer_uvout : s.buffer .uvout = s.uvout := rfl
@[simp] theorem State.buffer_rgbout : s.buffer .rgbout = s.rgbout := rfl

/-! ### `State.storeAll` into each output buffer -/

@[simp] theorem State.storeAll_yout_cfg (l : List Host.Cell) : (s.storeAll .yout l).cfg = s.cfg := rfl
@[simp] theorem State.storeAll_yout_cmd (l : List Host.Cell) : (s.storeAll .yout l).cmd = s.cmd := rfl
@[simp] theorem State.storeAll_yout_status (l : List Host.Cell) : (s.storeAll .yout l).status = s.status := rfl
@[simp] theorem State.storeAll_yout_err (l : List Host.Cell) : (s.storeAll .yout l).err = s.err := rfl
@[simp] theorem State.storeAll_yout_width (l : List Host.Cell) : (s.storeAll .yout l).width = s.width := rfl
@[simp] theorem State.storeAll_yout_height (l : List Host.Cell) : (s.storeAll .yout l).height = s.height := rfl
@[simp] theorem State.storeAll_yout_cropw (l : List Host.Cell) : (s.storeAll .yout l).cropw = s.cropw := rfl
@[simp] theorem State.storeAll_yout_croph (l : List Host.Cell) : (s.storeAll .yout l).croph = s.croph := rfl
@[simp] theorem State.storeAll_yout_ylen (l : List Host.Cell) : (s.storeAll .yout l).ylen = s.ylen := rfl
@[simp] theorem State.storeAll_yout_uvlen (l : List Host.Cell) : (s.storeAll .yout l).uvlen = s.uvlen := rfl
@[simp] theorem State.storeAll_yout_owidth (l : List Host.Cell) : (s.storeAll .yout l).owidth = s.owidth := rfl
@[simp] theorem State.storeAll_yout_oheight (l : List Host.Cell) : (s.storeAll .yout l).oheight = s.oheight := rfl
@[simp] theorem State.storeAll_yout_oylen (l : List Host.Cell) : (s.storeAll .yout l).oylen = s.oylen := rfl
@[simp] theorem State.storeAll_yout_ouvlen (l : List Host.Cell) : (s.storeAll .yout l).ouvlen = s.ouvlen := rfl
@[simp] theorem State.storeAll_yout_orgblen (l : List Host.Cell) : (s.storeAll .yout l).orgblen = s.orgblen := rfl
@[simp] theorem State.storeAll_yout_yin (l : List Host.Cell) : (s.storeAll .yout l).yin = s.yin := rfl
@[simp] theorem State.storeAll_yout_uvin (l : List Host.Cell) : (s.storeAll .yout l).uvin = s.uvin := rfl
@[simp] theorem State.storeAll_yout_yout (l : List Host.Cell) : (s.storeAll .yout l).yout = Memory.writeAll s.yout l := rfl
@[simp] theorem State.storeAll_yout_uvout (l : List Host.Cell) : (s.storeAll .yout l).uvout = s.uvout := rfl
@[simp] theorem State.storeAll_yout_rgbout (l : List Host.Cell) : (s.storeAll .yout l).rgbout = s.rgbout := rfl
@[simp] theorem State.storeAll_yout_script (l : List Host.Cell) : (s.storeAll .yout l).script = s.script := rfl
@[simp] theorem State.storeAll_yout_returned (l : List Host.Cell) : (s.storeAll .yout l).returned = s.returned := rfl
@[simp] theorem State.storeAll_yout_draws (l : List Host.Cell) : (s.storeAll .yout l).draws = s.draws := rfl

@[simp] theorem State.storeAll_uvout_cfg (l : List Host.Cell) : (s.storeAll .uvout l).cfg = s.cfg := rfl
@[simp] theorem State.storeAll_uvout_cmd (l : List Host.Cell) : (s.storeAll .uvout l).cmd = s.cmd := rfl
@[simp] theorem State.storeAll_uvout_status (l : List Host.Cell) : (s.storeAll .uvout l).status = s.status := rfl
@[simp] theorem State.storeAll_uvout_err (l : List Host.Cell) : (s.storeAll .uvout l).err = s.err := rfl
@[simp] theorem State.storeAll_uvout_width (l : List Host.Cell) : (s.storeAll .uvout l).width = s.width := rfl
@[simp] theorem State.storeAll_uvout_height (l : List Host.Cell) : (s.storeAll .uvout l).height = s.height := rfl
@[simp] theorem State.storeAll_uvout_cropw (l : List Host.Cell) : (s.storeAll .uvout l).cropw = s.cropw := rfl
@[simp] theorem State.storeAll_uvout_croph (l : List Host.Cell) : (s.storeAll .uvout l).croph = s.croph := rfl
@[simp] theorem State.storeAll_uvout_ylen (l : List Host.Cell) : (s.storeAll .uvout l).ylen = s.ylen := rfl
@[simp] theorem State.storeAll_uvout_uvlen (l : List Host.Cell) : (s.storeAll .uvout l).uvlen = s.uvlen := rfl
@[simp] theorem State.storeAll_uvout_owidth (l : List Host.Cell) : (s.storeAll .uvout l).owidth = s.owidth := rfl
@[simp] theorem State.storeAll_uvout_oheight (l : List Host.Cell) : (s.storeAll .uvout l).oheight = s.oheight := rfl
@[simp] theorem State.storeAll_uvout_oylen (l : List Host.Cell) : (s.storeAll .uvout l).oylen = s.oylen := rfl
@[simp] theorem State.storeAll_uvout_ouvlen (l : List Host.Cell) : (s.storeAll .uvout l).ouvlen = s.ouvlen := rfl
@[simp] theorem State.storeAll_uvout_orgblen (l : List Host.Cell) : (s.storeAll .uvout l).orgblen = s.orgblen := rfl
@[simp] theorem State.storeAll_uvout_yin (l : List Host.Cell) : (s.storeAll .uvout l).yin = s.yin := rfl
@[simp] theorem State.storeAll_uvout_uvin (l : List Host.Cell) : (s.storeAll .uvout l).uvin = s.uvin := rfl
@[simp] theorem State.storeAll_uvout_yout (l : List Host.Cell) : (s.storeAll .uvout l).yout = s.yout := rfl
@[simp] theorem State.storeAll_uvout_uvout (l : List Host.Cell) : (s.storeAll .uvout l).uvout = Memory.writeAll s.uvout l := rfl
@[simp] theorem State.storeAll_uvout_rgbout (l : List Host.Cell) : (s.storeAll .uvout l).rgbout = s.rgbout := rfl
@[simp] theorem State.storeAll_uvout_script (l : List Host.Cell) : (s.storeAll .uvout l).script = s.script := rfl
@[simp] theorem State.storeAll_uvout_returned (l : List Host.Cell) : (s.storeAll .uvout l).returned = s.returned := rfl
@[simp] theorem State.storeAll_uvout_draws (l : List Host.Cell) : (s.storeAll .uvout l).draws = s.draws := rfl

@[simp] theorem State.storeAll_rgbout_cfg (l : List Host.Cell) : (s.storeAll .rgbout l).cfg = s.cfg := rfl
@[simp] theorem State.storeAll_rgbout_cmd (l : List Host.Cell) : (s.storeAll .rgbout l).cmd = s.cmd := rfl
@[simp] theorem State.storeAll_rgbout_status (l : List Host.Cell) : (s.storeAll .rgbout l).status = s.status := rfl
@[simp] theorem State.storeAll_rgbout_err (l : List Host.Cell) : (s.storeAll .rgbout l).err = s.err := rfl
@[simp] theorem State.storeAll_rgbout_width (l : List Host.Cell) : (s.storeAll .rgbout l).width = s.width := rfl
@[simp] theorem State.storeAll_rgbout_height (l : List Host.Cell) : (s.storeAll .rgbout l).height = s.height := rfl
@[simp] theorem State.storeAll_rgbout_cropw (l : List Host.Cell) : (s.storeAll .rgbout l).cropw = s.cropw := rfl
@[simp] theorem State.storeAll_rgbout_croph (l : List Host.Cell) : (s.storeAll .rgbout l).croph = s.croph := rfl
@[simp] theorem State.storeAll_rgbout_ylen (l : List Host.Cell) : (s.storeAll .rgbout l).ylen = s.ylen := rfl
@[simp] theorem State.storeAll_rgbout_uvlen (l : List Host.Cell) : (s.storeAll .rgbout l).uvlen = s.uvlen := rfl
@[simp] theorem State.storeAll_rgbout_owidth (l : List Host.Cell) : (s.storeAll .rgbout l).owidth = s.owidth := rfl
@[simp] theorem State.storeAll_rgbout_oheight (l : List Host.Cell) : (s.storeAll .rgbout l).oheight = s.oheight := rfl
@[simp] theorem State.storeAll_rgbout_oylen (l : List Host.Cell) : (s.storeAll .rgbout l).oylen = s.oylen := rfl
@[simp] theorem State.storeAll_rgbout_ouvlen (l : List Host.Cell) : (s.storeAll .rgbout l).ouvlen = s.ouvlen := rfl
@[simp] theorem State.storeAll_rgbout_orgblen (l : List Host.Cell) : (s.storeAll .rgbout l).orgblen = s.orgblen := rfl
@[simp] theorem State.storeAll_rgbout_yin (l : List Host.Cell) : (s.storeAll .rgbout l).yin = s.yin := rfl
@[simp] theorem State.storeAll_rgbout_uvin (l : List Host.Cell) : (s.storeAll .rgbout l).uvin = s.uvin := rfl
@[simp] theorem State.storeAll_rgbout_yout (l : List Host.Cell) : (s.storeAll .rgbout l).yout = s.yout := rfl
@[simp] theorem State.storeAll_rgbout_uvout (l : List Host.Cell) : (s.storeAll .rgbout l).uvout = s.uvout := rfl
@[simp] theorem State.storeAll_rgbout_rgbout (l : List Host.Cell) : (s.storeAll .rgbout l).rgbout = Memory.writeAll s.rgbout l := rfl
@[simp] theorem State.storeAll_rgbout_script (l : List Host.Cell) : (s.storeAll .rgbout l).script = s.script := rfl
@[simp] theorem State.storeAll_rgbout_returned (l : List Host.Cell) : (s.storeAll .rgbout l).returned = s.returned := rfl
@[simp] theorem State.storeAll_rgbout_draws (l : List Host.Cell) : (s.storeAll .rgbout l).draws = s.draws := rfl

/-! ### `State.resetEvent` -/

@[simp] theorem State.resetEvent_cfg : s.resetEvent.cfg = s.cfg := rfl
@[simp] theorem State.resetEvent_cmd : s.resetEvent.cmd = 0#8 := rfl
@[simp] theorem State.resetEvent_status : s.resetEvent.status = .idle := rfl
@[simp] theorem State.resetEvent_err : s.resetEvent.err = .noError := rfl
@[simp] theorem State.resetEvent_width : s.resetEvent.width = 0 := rfl
@[simp] theorem State.resetEvent_height : s.resetEvent.height = 0 := rfl
@[simp] theorem State.resetEvent_cropw : s.resetEvent.cropw = 0 := rfl
@[simp] theorem State.resetEvent_croph : s.resetEvent.croph = 0 := rfl
@[simp] theorem State.resetEvent_ylen : s.resetEvent.ylen = 0 := rfl
@[simp] theorem State.resetEvent_uvlen : s.resetEvent.uvlen = 0 := rfl
@[simp] theorem State.resetEvent_owidth : s.resetEvent.owidth = 0 := rfl
@[simp] theorem State.resetEvent_oheight : s.resetEvent.oheight = 0 := rfl
@[simp] theorem State.resetEvent_oylen : s.resetEvent.oylen = 0 := rfl
@[simp] theorem State.resetEvent_ouvlen : s.resetEvent.ouvlen = 0 := rfl
@[simp] theorem State.resetEvent_orgblen : s.resetEvent.orgblen = 0 := rfl
@[simp] theorem State.resetEvent_yin : s.resetEvent.yin = [] := rfl
@[simp] theorem State.resetEvent_uvin : s.resetEvent.uvin = [] := rfl
@[simp] theorem State.resetEvent_yout : s.resetEvent.yout = [] := rfl
@[simp] theorem State.resetEvent_uvout : s.resetEvent.uvout = [] := rfl
@[simp] theorem State.resetEvent_rgbout : s.resetEvent.rgbout = [] := rfl
@[simp] theorem State.resetEvent_script : s.resetEvent.script = s.script := rfl
@[simp] theorem State.resetEvent_returned : s.resetEvent.returned = s.returned := rfl
@[simp] theorem State.resetEvent_draws : s.resetEvent.draws = s.draws := rfl

end Sys2Proof.Machine
end

