-- ==== Sys2Proof/Laws/Done.lean ====
section
/-! SUPPORT. What the state after a completed command holds, field by field, true by unfolding. -/

namespace Sys2Proof.Machine

variable (s : State)

/-! ### `State.compressed` -/

@[simp] theorem State.compressed_cfg : s.compressed.cfg = s.cfg := rfl
@[simp] theorem State.compressed_cmd : s.compressed.cmd = s.cmd := rfl
@[simp] theorem State.compressed_status : s.compressed.status = .done := rfl
@[simp] theorem State.compressed_err : s.compressed.err = .noError := rfl
@[simp] theorem State.compressed_width : s.compressed.width = s.width := rfl
@[simp] theorem State.compressed_height : s.compressed.height = s.height := rfl
@[simp] theorem State.compressed_cropw : s.compressed.cropw = s.cropw := rfl
@[simp] theorem State.compressed_croph : s.compressed.croph = s.croph := rfl
@[simp] theorem State.compressed_ylen : s.compressed.ylen = s.ylen := rfl
@[simp] theorem State.compressed_uvlen : s.compressed.uvlen = s.uvlen := rfl
@[simp] theorem State.compressed_owidth : s.compressed.owidth = s.compressWidth := rfl
@[simp] theorem State.compressed_oheight : s.compressed.oheight = s.compressHeight := rfl
@[simp] theorem State.compressed_oylen : s.compressed.oylen = s.compressWidth * s.compressHeight := rfl
@[simp] theorem State.compressed_ouvlen : s.compressed.ouvlen = s.compressWidth * s.compressHeight / 2 := rfl
@[simp] theorem State.compressed_orgblen : s.compressed.orgblen = 0 := rfl
@[simp] theorem State.compressed_yin : s.compressed.yin = s.yin := rfl
@[simp] theorem State.compressed_uvin : s.compressed.uvin = s.uvin := rfl
@[simp] theorem State.compressed_yout : s.compressed.yout = Memory.writeAll s.yout (compressLumaStores s) := rfl
@[simp] theorem State.compressed_uvout : s.compressed.uvout = Memory.writeAll s.uvout (compressChromaStores s) := rfl
@[simp] theorem State.compressed_rgbout : s.compressed.rgbout = s.rgbout := rfl
@[simp] theorem State.compressed_script : s.compressed.script = s.script := rfl
@[simp] theorem State.compressed_returned : s.compressed.returned = s.returned := rfl
@[simp] theorem State.compressed_draws : s.compressed.draws = s.draws + (s.compressWidth * s.compressHeight + s.compressWidth * s.compressHeight / 2) := rfl

/-! ### `State.cropped` -/

@[simp] theorem State.cropped_cfg : s.cropped.cfg = s.cfg := rfl
@[simp] theorem State.cropped_cmd : s.cropped.cmd = s.cmd := rfl
@[simp] theorem State.cropped_status : s.cropped.status = .done := rfl
@[simp] theorem State.cropped_err : s.cropped.err = .noError := rfl
@[simp] theorem State.cropped_width : s.cropped.width = s.width := rfl
@[simp] theorem State.cropped_height : s.cropped.height = s.height := rfl
@[simp] theorem State.cropped_cropw : s.cropped.cropw = s.cropw := rfl
@[simp] theorem State.cropped_croph : s.cropped.croph = s.croph := rfl
@[simp] theorem State.cropped_ylen : s.cropped.ylen = s.ylen := rfl
@[simp] theorem State.cropped_uvlen : s.cropped.uvlen = s.uvlen := rfl
@[simp] theorem State.cropped_owidth : s.cropped.owidth = s.cropWidth := rfl
@[simp] theorem State.cropped_oheight : s.cropped.oheight = s.cropHeight := rfl
@[simp] theorem State.cropped_oylen : s.cropped.oylen = s.cropWidth * s.cropHeight := rfl
@[simp] theorem State.cropped_ouvlen : s.cropped.ouvlen = s.cropWidth * s.cropHeight / 2 := rfl
@[simp] theorem State.cropped_orgblen : s.cropped.orgblen = 0 := rfl
@[simp] theorem State.cropped_yin : s.cropped.yin = s.yin := rfl
@[simp] theorem State.cropped_uvin : s.cropped.uvin = s.uvin := rfl
@[simp] theorem State.cropped_yout : s.cropped.yout = Memory.writeAll s.yout (cropLumaStores s) := rfl
@[simp] theorem State.cropped_uvout : s.cropped.uvout = Memory.writeAll s.uvout (cropChromaStores s) := rfl
@[simp] theorem State.cropped_rgbout : s.cropped.rgbout = s.rgbout := rfl
@[simp] theorem State.cropped_script : s.cropped.script = s.script := rfl
@[simp] theorem State.cropped_returned : s.cropped.returned = s.returned := rfl
@[simp] theorem State.cropped_draws : s.cropped.draws = s.draws + (s.cropWidth * s.cropHeight + s.cropWidth * s.cropHeight / 2) := rfl

/-! ### `State.converted` -/

@[simp] theorem State.converted_cfg : s.converted.cfg = s.cfg := rfl
@[simp] theorem State.converted_cmd : s.converted.cmd = s.cmd := rfl
@[simp] theorem State.converted_status : s.converted.status = .done := rfl
@[simp] theorem State.converted_err : s.converted.err = .noError := rfl
@[simp] theorem State.converted_width : s.converted.width = s.width := rfl
@[simp] theorem State.converted_height : s.converted.height = s.height := rfl
@[simp] theorem State.converted_cropw : s.converted.cropw = s.cropw := rfl
@[simp] theorem State.converted_croph : s.converted.croph = s.croph := rfl
@[simp] theorem State.converted_ylen : s.converted.ylen = s.ylen := rfl
@[simp] theorem State.converted_uvlen : s.converted.uvlen = s.uvlen := rfl
@[simp] theorem State.converted_owidth : s.converted.owidth = 0 := rfl
@[simp] theorem State.converted_oheight : s.converted.oheight = 0 := rfl
@[simp] theorem State.converted_oylen : s.converted.oylen = 0 := rfl
@[simp] theorem State.converted_ouvlen : s.converted.ouvlen = 0 := rfl
@[simp] theorem State.converted_orgblen : s.converted.orgblen = 3 * s.width * s.height := rfl
@[simp] theorem State.converted_yin : s.converted.yin = s.yin := rfl
@[simp] theorem State.converted_uvin : s.converted.uvin = s.uvin := rfl
@[simp] theorem State.converted_yout : s.converted.yout = s.yout := rfl
@[simp] theorem State.converted_uvout : s.converted.uvout = s.uvout := rfl
@[simp] theorem State.converted_rgbout : s.converted.rgbout = Memory.writeAll s.rgbout (torgbStores s) := rfl
@[simp] theorem State.converted_script : s.converted.script = s.script := rfl
@[simp] theorem State.converted_returned : s.converted.returned = s.returned := rfl
@[simp] theorem State.converted_draws : s.converted.draws = s.draws + 3 * s.width * s.height := rfl

end Sys2Proof.Machine
end

