-- ==== Sys2Proof/Laws/Memory.lean ====
section
/-! SUPPORT. The laws of one buffer: read after write, the canonical form, equal memories are equal data, and what a list of
stores leaves at an index. -/

namespace Sys2Proof.Machine

@[simp] theorem Memory.read_nil (a : Nat) : Memory.read [] a = none := rfl

/-- Read after write: the written index has the value, every other index is as before. -/
theorem Memory.read_write (m : Memory) (a b : Nat) (v : Byte) :
    Memory.read (Memory.write m a v) b = if b = a then some v else Memory.read m b := by
  induction m with
  | nil => simp [Memory.write, Memory.read, eq_comm]
  | cons c m ih =>
    obtain ⟨k, x⟩ := c
    simp only [Memory.write]
    split
    · simp only [Memory.read, eq_comm]
    · split
      · rename_i h1 h2
        subst h2
        simp only [Memory.read, eq_comm]
        split <;> rfl
      · rename_i h1 h2
        simp only [Memory.read, ih]
        by_cases hk : k = b
        · subst hk; simp [Ne.symm h2]
        · simp [hk]

@[simp] theorem Memory.read_write_same (m : Memory) (a : Nat) (v : Byte) :
    Memory.read (Memory.write m a v) a = some v := by simp [Memory.read_write]

theorem Memory.read_write_other (m : Memory) {a b : Nat} (v : Byte) (h : b ≠ a) :
    Memory.read (Memory.write m a v) b = Memory.read m b := by simp [Memory.read_write, h]

/-- The indices a write lists: the old ones and the written one. -/
theorem Memory.mem_write {m : Memory} {a : Nat} {v : Byte} {c : Host.Cell} (h : c ∈ Memory.write m a v) :
    c = (a, v) ∨ c ∈ m := by
  induction m with
  | nil => simpa [Memory.write] using h
  | cons d m ih =>
    obtain ⟨k, x⟩ := d
    simp only [Memory.write] at h
    split at h
    · simpa using h
    · split at h
      · simp only [List.mem_cons] at h ⊢; tauto
      · simp only [List.mem_cons] at h ⊢
        rcases h with h | h
        · exact .inr (.inl h)
        · rcases ih h with h | h
          · exact .inl h
          · exact .inr (.inr h)

/-- A write keeps the canonical form. -/
theorem Memory.wf_write {m : Memory} (h : Memory.wf m) (a : Nat) (v : Byte) : Memory.wf (Memory.write m a v) := by
  induction m with
  | nil => simp [Memory.write]
  | cons d m ih =>
    obtain ⟨k, x⟩ := d
    rw [Memory.wf, List.pairwise_cons] at h
    obtain ⟨hk, hm⟩ := h
    simp only [Memory.write]
    split
    · rename_i hlt
      rw [Memory.wf, List.pairwise_cons]
      refine ⟨?_, List.pairwise_cons.2 ⟨hk, hm⟩⟩
      intro c hc
      rcases List.mem_cons.1 hc with rfl | hc
      · exact hlt
      · exact hlt.trans (hk c hc)
    · split
      · rename_i _ heq
        subst heq
        exact List.pairwise_cons.2 ⟨hk, hm⟩
      · rename_i h1 h2
        refine List.pairwise_cons.2 ⟨?_, ih hm⟩
        intro c hc
        rcases Memory.mem_write hc with rfl | hc
        · exact lt_of_le_of_ne (Nat.le_of_not_lt h1) (Ne.symm h2)
        · exact hk c hc

theorem Memory.read_eq_none_of_lt {m : Memory} {a : Nat} (h : ∀ c ∈ m, a < c.1) : Memory.read m a = none := by
  induction m with
  | nil => rfl
  | cons d m ih =>
    obtain ⟨k, x⟩ := d
    have hk : a < k := h (k, x) (List.mem_cons_self ..)
    have : k ≠ a := by omega
    simp only [Memory.read, if_neg this]
    exact ih fun c hc => h c (List.mem_cons_of_mem _ hc)

/-- A listed byte is read back, in canonical form. -/
theorem Memory.read_of_mem {m : Memory} (hw : Memory.wf m) {a : Nat} {v : Byte} (h : (a, v) ∈ m) :
    Memory.read m a = some v := by
  induction m with
  | nil => simp at h
  | cons d m ih =>
    obtain ⟨k, x⟩ := d
    obtain ⟨hk, hm⟩ := List.pairwise_cons.1 hw
    rcases List.mem_cons.1 h with h | h
    · cases h; simp [Memory.read]
    · have := hk _ h
      simp only at this
      simp only [Memory.read, if_neg (by omega : ¬ k = a)]
      exact ih hm h

/-- A byte that is read is listed. -/
theorem Memory.mem_of_read {m : Memory} {a : Nat} {v : Byte} (h : Memory.read m a = some v) : (a, v) ∈ m := by
  induction m with
  | nil => simp at h
  | cons d m ih =>
    obtain ⟨k, x⟩ := d
    simp only [Memory.read] at h
    split at h
    · rename_i hk; subst hk; cases h; exact List.mem_cons_self ..
    · exact List.mem_cons_of_mem _ (ih h)

/-- Equal memories are equal data: in canonical form, a memory is what its indices read as. -/
theorem Memory.ext_read {m m' : Memory} (hm : Memory.wf m) (hm' : Memory.wf m')
    (h : ∀ a, Memory.read m a = Memory.read m' a) : m = m' := by
  have sub : ∀ {m m' : Memory}, Memory.wf m → Memory.wf m' → (∀ a, Memory.read m a = Memory.read m' a) →
      ∀ c ∈ m, c ∈ m' := by
    intro m m' hm _ h c hc
    obtain ⟨a, v⟩ := c
    exact Memory.mem_of_read ((h a).symm.trans (Memory.read_of_mem hm hc))
  have asym : ∀ a b : Host.Cell, a.1 < b.1 → b.1 < a.1 → a = b := fun a b h1 h2 => absurd h1 (by omega)
  refine List.Perm.eq_of_pairwise (fun a b _ _ h1 h2 => asym a b h1 h2) hm hm' ?_
  refine (List.perm_ext_iff_of_nodup ?_ ?_).2 fun c => ⟨sub hm hm' h c, sub hm' hm (fun a => (h a).symm) c⟩
  · exact hm.imp fun {a b} hab he => by subst he; omega
  · exact hm'.imp fun {a b} hab he => by subst he; omega

/-! ### Lists of stores -/

@[simp] theorem Memory.writeAll_nil (m : Memory) : Memory.writeAll m [] = m := rfl

@[simp] theorem Memory.writeAll_cons (m : Memory) (c : Host.Cell) (l : List Host.Cell) :
    Memory.writeAll m (c :: l) = Memory.writeAll (Memory.write m c.1 c.2) l := rfl

theorem Memory.writeAll_append (m : Memory) (l l' : List Host.Cell) :
    Memory.writeAll m (l ++ l') = Memory.writeAll (Memory.writeAll m l) l' := by
  simp [Memory.writeAll, List.foldl_append]

theorem Memory.wf_writeAll {m : Memory} (h : Memory.wf m) (l : List Host.Cell) : Memory.wf (Memory.writeAll m l) := by
  induction l generalizing m with
  | nil => exact h
  | cons c l ih => exact ih (Memory.wf_write h c.1 c.2)

theorem Memory.mem_writeAll {m : Memory} {l : List Host.Cell} {c : Host.Cell} (h : c ∈ Memory.writeAll m l) :
    c ∈ l ∨ c ∈ m := by
  induction l generalizing m with
  | nil => exact .inr h
  | cons d l ih =>
    rcases ih h with h | h
    · exact .inl (List.mem_cons_of_mem _ h)
    · rcases Memory.mem_write h with rfl | h
      · exact .inl (List.mem_cons_self ..)
      · exact .inr h

/-- An index no store names reads as before. -/
theorem Memory.read_writeAll_of_not_stored {m : Memory} {l : List Host.Cell} {a : Nat} (h : ∀ c ∈ l, c.1 ≠ a) :
    Memory.read (Memory.writeAll m l) a = Memory.read m a := by
  induction l generalizing m with
  | nil => rfl
  | cons c l ih =>
    rw [Memory.writeAll_cons, ih fun d hd => h d (List.mem_cons_of_mem _ hd)]
    exact Memory.read_write_other m _ (Ne.symm (h c (List.mem_cons_self ..)))

/-- An index that some store names, and for which all such stores carry one value, reads as that value. -/
theorem Memory.read_writeAll_of_stored {m : Memory} {l : List Host.Cell} {a : Nat} {v : Byte} (h : (a, v) ∈ l)
    (huniq : ∀ c ∈ l, c.1 = a → c.2 = v) : Memory.read (Memory.writeAll m l) a = some v := by
  induction l generalizing m with
  | nil => simp at h
  | cons c l ih =>
    rw [Memory.writeAll_cons]
    by_cases hl : ∃ d ∈ l, d.1 = a
    · obtain ⟨d, hd, rfl⟩ := hl
      have hv := huniq d (List.mem_cons_of_mem _ hd) rfl
      refine ih ?_ fun e he => huniq e (List.mem_cons_of_mem _ he)
      rw [← hv]; exact hd
    · have hn : ∀ d ∈ l, d.1 ≠ a := fun d hd he => hl ⟨d, hd, he⟩
      rw [Memory.read_writeAll_of_not_stored hn]
      rcases List.mem_cons.1 h with rfl | h
      · simp
      · exact absurd rfl (hn _ h)

/-! ### Loop nests -/

theorem mem_loopNest {h w : Nat} {body : Nat → Nat → List Host.Cell} {c : Host.Cell} :
    c ∈ loopNest h w body ↔ ∃ row < h, ∃ col < w, c ∈ body row col := by
  simp [loopNest, List.mem_flatMap]

end Sys2Proof.Machine
end

