-- ==== Sys2Proof/Laws/Ops.lean ====
section
/-! SUPPORT. One lemma per shared operation that says what it can do. -/

namespace Sys2Proof.Machine

/-- A load of a written byte is that byte. -/
theorem State.load_of_written {s : State} {b : Buffer} {a site : Nat} {v : Byte}
    (h : Memory.read (s.buffer b) a = some v) : s.load b a site = v := by
  simp [State.load, h]

theorem State.dimsOK_iff (s : State) :
    s.dimsOK = true ↔ 0 < s.width ∧ 0 < s.height ∧ s.width % 2 = 0 ∧ s.height % 2 = 0 := by
  simp [State.dimsOK]

theorem State.dims3OK_iff (s : State) : s.dims3OK = true ↔ s.width % 3 = 0 ∧ s.height % 3 = 0 := by
  simp [State.dims3OK]

theorem State.frameOK_iff (s : State) :
    s.frameOK = true ↔ s.ylen = s.width * s.height ∧ s.uvlen = s.width * s.height / 2 := by
  simp [State.frameOK]

theorem State.cropOK_iff (s : State) :
    s.cropOK = true ↔ s.cropw < s.width ∧ s.croph < s.height ∧ s.cropw % 2 = 0 ∧ s.croph % 2 = 0 := by
  simp [State.cropOK]

/-- The byte addresses of a plane of row length `w` name each row and column once. -/
theorem address_inj {w r c r' c' : Nat} (hc : c < w) (hc' : c' < w) (h : r * w + c = r' * w + c') : r = r' ∧ c = c' := by
  have hr : r = r' := by
    have h1 : (r * w + c) / w = r := by
      rw [Nat.mul_comm, Nat.mul_add_div (by omega), Nat.div_eq_of_lt hc, Nat.add_zero]
    have h2 : (r' * w + c') / w = r' := by
      rw [Nat.mul_comm, Nat.mul_add_div (by omega), Nat.div_eq_of_lt hc', Nat.add_zero]
    rw [← h1, ← h2, h]
  subst hr
  exact ⟨rfl, by omega⟩

/-- An address of a plane of `h` rows of `w` bytes lies below `h * w`. -/
theorem address_lt {w h r c : Nat} (hr : r < h) (hc : c < w) : r * w + c < h * w := by
  calc r * w + c < r * w + w := by omega
    _ = (r + 1) * w := by rw [Nat.add_mul, Nat.one_mul]
    _ ≤ h * w := Nat.mul_le_mul_right w hr

/-- Every index below `h * w` is the address of a row and a column. -/
theorem exists_address {w h a : Nat} (ha : a < h * w) : ∃ r < h, ∃ c < w, a = r * w + c := by
  have hw : 0 < w := by
    rcases Nat.eq_zero_or_pos w with rfl | hw
    · simp at ha
    · exact hw
  refine ⟨a / w, Nat.div_lt_of_lt_mul (by rw [Nat.mul_comm]; exact ha), a % w, Nat.mod_lt _ hw, ?_⟩
  rw [Nat.mul_comm]; exact (Nat.div_add_mod a w).symm

end Sys2Proof.Machine
end

