-- ==== Sys2Proof/Laws/Stores.lean ====
section
/-! SUPPORT. What each command's loop nests leave at each index of an output buffer: the byte of the pseudocode inside the valid
extent, and the byte that was there before outside it. -/

namespace Sys2Proof.Machine

/-! ### Nests that store one byte per row and column -/

theorem read_byteNest {m : Memory} {h w : Nat} {f : Nat → Nat → Byte} {r c : Nat} (hr : r < h) (hc : c < w) :
    Memory.read (Memory.writeAll m (loopNest h w fun row col => [(row * w + col, f row col)])) (r * w + c)
      = some (f r c) := by
  refine Memory.read_writeAll_of_stored (mem_loopNest.2 ⟨r, hr, c, hc, List.mem_singleton.2 rfl⟩) ?_
  intro d hd he
  obtain ⟨r', _, c', hc', hd⟩ := mem_loopNest.1 hd
  obtain rfl := List.mem_singleton.1 hd
  obtain ⟨rfl, rfl⟩ := address_inj hc' hc he
  rfl

theorem read_byteNest_beyond {m : Memory} {h w : Nat} {f : Nat → Nat → Byte} {a : Nat} (ha : h * w ≤ a) :
    Memory.read (Memory.writeAll m (loopNest h w fun row col => [(row * w + col, f row col)])) a = Memory.read m a := by
  refine Memory.read_writeAll_of_not_stored fun d hd => ?_
  obtain ⟨r, hr, c, hc, hd⟩ := mem_loopNest.1 hd
  obtain rfl := List.mem_singleton.1 hd
  have := address_lt hr hc
  simp only; omega

/-! ### Nests that store one pair per row and column -/

theorem read_pairNest {m : Memory} {h w : Nat} {f g : Nat → Nat → Byte} (hw : w % 2 = 0) {r c : Nat} (hr : r < h)
    (hc : c < w / 2) :
    Memory.read (Memory.writeAll m (loopNest h (w / 2) fun row col =>
        [(row * w + 2 * col, f row col), (row * w + (2 * col + 1), g row col)])) (r * w + 2 * c) = some (f r c) ∧
    Memory.read (Memory.writeAll m (loopNest h (w / 2) fun row col =>
        [(row * w + 2 * col, f row col), (row * w + (2 * col + 1), g row col)])) (r * w + (2 * c + 1)) = some (g r c) := by
  constructor
  · refine Memory.read_writeAll_of_stored (mem_loopNest.2 ⟨r, hr, c, hc, by simp⟩) ?_
    intro d hd he
    obtain ⟨r', _, c', hc', hd⟩ := mem_loopNest.1 hd
    simp only [List.mem_cons, List.not_mem_nil, or_false] at hd
    rcases hd with rfl | rfl
    · obtain ⟨rfl, h2⟩ := address_inj (w := w) (by omega) (by omega) he
      obtain rfl : c' = c := by omega
      rfl
    · obtain ⟨_, h2⟩ := address_inj (w := w) (by omega) (by omega) he
      omega
  · refine Memory.read_writeAll_of_stored (mem_loopNest.2 ⟨r, hr, c, hc, by simp⟩) ?_
    intro d hd he
    obtain ⟨r', _, c', hc', hd⟩ := mem_loopNest.1 hd
    simp only [List.mem_cons, List.not_mem_nil, or_false] at hd
    rcases hd with rfl | rfl
    · obtain ⟨_, h2⟩ := address_inj (w := w) (by omega) (by omega) he
      omega
    · obtain ⟨rfl, h2⟩ := address_inj (w := w) (by omega) (by omega) he
      obtain rfl : c' = c := by omega
      rfl

theorem read_pairNest_beyond {m : Memory} {h w : Nat} {f g : Nat → Nat → Byte} {a : Nat} (ha : h * w ≤ a) :
    Memory.read (Memory.writeAll m (loopNest h (w / 2) fun row col =>
        [(row * w + 2 * col, f row col), (row * w + (2 * col + 1), g row col)])) a = Memory.read m a := by
  refine Memory.read_writeAll_of_not_stored fun d hd => ?_
  obtain ⟨r, hr, c, hc, hd⟩ := mem_loopNest.1 hd
  simp only [List.mem_cons, List.not_mem_nil, or_false] at hd
  have h1 := address_lt (w := w) hr (show 2 * c < w by omega)
  have h2 := address_lt (w := w) hr (show 2 * c + 1 < w by omega)
  rcases hd with rfl | rfl <;> simp only <;> omega

/-! ### COMPRESS -/

theorem read_compressLuma {s : State} {m : Memory} {ox oy : Nat} (hx : ox < s.compressWidth) (hy : oy < s.compressHeight) :
    Memory.read (Memory.writeAll m (compressLumaStores s)) (yaddr ox oy s.compressWidth) =
      some (s.load .yin (yaddr (keptIndex ox) (keptIndex oy) s.width) (yaddr ox oy s.compressWidth)) :=
  read_byteNest (f := fun oy ox =>
    s.load .yin (yaddr (keptIndex ox) (keptIndex oy) s.width) (yaddr ox oy s.compressWidth)) hy hx

theorem read_compressLuma_beyond {s : State} {m : Memory} {a : Nat} (ha : s.compressWidth * s.compressHeight ≤ a) :
    Memory.read (Memory.writeAll m (compressLumaStores s)) a = Memory.read m a :=
  read_byteNest_beyond (f := fun oy ox =>
    s.load .yin (yaddr (keptIndex ox) (keptIndex oy) s.width) (yaddr ox oy s.compressWidth))
    (by rw [Nat.mul_comm]; exact ha)

theorem read_compressChroma {s : State} {m : Memory} (hw : s.compressWidth % 2 = 0) {cx cy : Nat}
    (hx : cx < s.compressWidth / 2) (hy : cy < s.compressHeight / 2) :
    Memory.read (Memory.writeAll m (compressChromaStores s)) (uaddr cx cy s.compressWidth) =
      some (s.load .uvin (uvByte (6 * cx) (3 * cy) s.width)
        (s.compressWidth * s.compressHeight + uaddr cx cy s.compressWidth)) ∧
    Memory.read (Memory.writeAll m (compressChromaStores s)) (vaddr cx cy s.compressWidth) =
      some (s.load .uvin (uvByte (6 * cx + 1) (3 * cy) s.width)
        (s.compressWidth * s.compressHeight + vaddr cx cy s.compressWidth)) :=
  read_pairNest
    (f := fun cy cx => s.load .uvin (uvByte (6 * cx) (3 * cy) s.width)
      (s.compressWidth * s.compressHeight + uaddr cx cy s.compressWidth))
    (g := fun cy cx => s.load .uvin (uvByte (6 * cx + 1) (3 * cy) s.width)
      (s.compressWidth * s.compressHeight + vaddr cx cy s.compressWidth)) hw hy hx

theorem read_compressChroma_beyond {s : State} {m : Memory} {a : Nat}
    (ha : s.compressHeight / 2 * s.compressWidth ≤ a) :
    Memory.read (Memory.writeAll m (compressChromaStores s)) a = Memory.read m a :=
  read_pairNest_beyond
    (f := fun cy cx => s.load .uvin (uvByte (6 * cx) (3 * cy) s.width)
      (s.compressWidth * s.compressHeight + uaddr cx cy s.compressWidth))
    (g := fun cy cx => s.load .uvin (uvByte (6 * cx + 1) (3 * cy) s.width)
      (s.compressWidth * s.compressHeight + vaddr cx cy s.compressWidth)) ha

/-! ### CROP -/

theorem read_cropLuma {s : State} {m : Memory} {ox oy : Nat} (hx : ox < s.cropWidth) (hy : oy < s.cropHeight) :
    Memory.read (Memory.writeAll m (cropLumaStores s)) (yaddr ox oy s.cropWidth) =
      some (s.load .yin (yaddr (s.cropw / 2 + ox) (s.croph / 2 + oy) s.width) (yaddr ox oy s.cropWidth)) :=
  read_byteNest (f := fun oy ox =>
    s.load .yin (yaddr (s.cropw / 2 + ox) (s.croph / 2 + oy) s.width) (yaddr ox oy s.cropWidth)) hy hx

theorem read_cropLuma_beyond {s : State} {m : Memory} {a : Nat} (ha : s.cropWidth * s.cropHeight ≤ a) :
    Memory.read (Memory.writeAll m (cropLumaStores s)) a = Memory.read m a :=
  read_byteNest_beyond (f := fun oy ox =>
    s.load .yin (yaddr (s.cropw / 2 + ox) (s.croph / 2 + oy) s.width) (yaddr ox oy s.cropWidth))
    (by rw [Nat.mul_comm]; exact ha)

theorem read_cropChroma {s : State} {m : Memory} {b cy : Nat} (hb : b < s.cropWidth)
    (hy : cy < s.cropChromaBottom - s.cropChromaTop) :
    Memory.read (Memory.writeAll m (cropChromaStores s)) (uvByte b cy s.cropWidth) =
      some (s.load .uvin (uvByte (s.cropw / 2 + b) (s.cropChromaTop + cy) s.width)
        (s.cropWidth * s.cropHeight + uvByte b cy s.cropWidth)) :=
  read_byteNest (f := fun cy b =>
    s.load .uvin (uvByte (s.cropw / 2 + b) (s.cropChromaTop + cy) s.width)
      (s.cropWidth * s.cropHeight + uvByte b cy s.cropWidth)) hy hb

theorem read_cropChroma_beyond {s : State} {m : Memory} {a : Nat}
    (ha : (s.cropChromaBottom - s.cropChromaTop) * s.cropWidth ≤ a) :
    Memory.read (Memory.writeAll m (cropChromaStores s)) a = Memory.read m a :=
  read_byteNest_beyond (f := fun cy b =>
    s.load .uvin (uvByte (s.cropw / 2 + b) (s.cropChromaTop + cy) s.width)
      (s.cropWidth * s.cropHeight + uvByte b cy s.cropWidth)) ha

/-! ### TORGB -/

/-- The three bytes pixel `(x, y)` is converted from. -/
theorem read_torgb {s : State} {m : Memory} {x y : Nat} (hx : x < s.width) (hy : y < s.height) {yv u v : Byte}
    (hyv : s.load .yin (yaddr x y s.width) (rgbAddr x y 0 s.width) = yv)
    (hu : s.load .uvin (uaddr (x / 2) (y / 2) s.width) (rgbAddr x y 1 s.width) = u)
    (hv : s.load .uvin (vaddr (x / 2) (y / 2) s.width) (rgbAddr x y 2 s.width) = v) :
    Memory.read (Memory.writeAll m (torgbStores s)) (rgbAddr x y 0 s.width) = some (channel (redNum yv v)) ∧
    Memory.read (Memory.writeAll m (torgbStores s)) (rgbAddr x y 1 s.width) = some (channel (greenNum yv u v)) ∧
    Memory.read (Memory.writeAll m (torgbStores s)) (rgbAddr x y 2 s.width) = some (channel (blueNum yv u)) := by
  subst hyv hu hv
  have key : ∀ k : Nat, k < 3 → ∀ c : Host.Cell, c ∈ torgbStores s → c.1 = rgbAddr x y k s.width →
      c ∈ pixelStores s y x := by
    intro k hk c hc he
    obtain ⟨y', hy', x', hx', hc⟩ := mem_loopNest.1 hc
    have hp : y' * s.width + x' = y * s.width + x := by
      simp only [pixelStores, List.mem_cons, List.not_mem_nil, or_false] at hc
      rcases hc with rfl | rfl | rfl <;> simp only [rgbAddr] at he <;> omega
    obtain ⟨rfl, rfl⟩ := address_inj hx' hx hp
    exact hc
  have mem : ∀ c ∈ pixelStores s y x, c ∈ torgbStores s := fun c hc => mem_loopNest.2 ⟨y, hy, x, hx, hc⟩
  refine ⟨?_, ?_, ?_⟩
  all_goals
    refine Memory.read_writeAll_of_stored (mem _ (by simp only [pixelStores, List.mem_cons, true_or, or_true])) ?_
    intro c hc he
  · have := key 0 (by omega) c hc he
    simp only [pixelStores, List.mem_cons, List.not_mem_nil, or_false] at this
    rcases this with rfl | rfl | rfl <;> first | rfl | (simp only [rgbAddr] at he; omega)
  · have := key 1 (by omega) c hc he
    simp only [pixelStores, List.mem_cons, List.not_mem_nil, or_false] at this
    rcases this with rfl | rfl | rfl <;> first | rfl | (simp only [rgbAddr] at he; omega)
  · have := key 2 (by omega) c hc he
    simp only [pixelStores, List.mem_cons, List.not_mem_nil, or_false] at this
    rcases this with rfl | rfl | rfl <;> first | rfl | (simp only [rgbAddr] at he; omega)

theorem read_torgb_beyond {s : State} {m : Memory} {a : Nat} (ha : 3 * s.width * s.height ≤ a) :
    Memory.read (Memory.writeAll m (torgbStores s)) a = Memory.read m a := by
  refine Memory.read_writeAll_of_not_stored fun d hd => ?_
  obtain ⟨y, hy, x, hx, hd⟩ := mem_loopNest.1 hd
  have h1 : 3 * (y * s.width + x) + 3 ≤ 3 * s.width * s.height := by
    have := address_lt hy hx
    calc 3 * (y * s.width + x) + 3 = 3 * (y * s.width + x + 1) := by omega
      _ ≤ 3 * (s.height * s.width) := Nat.mul_le_mul_left 3 this
      _ = 3 * s.width * s.height := by rw [Nat.mul_assoc, Nat.mul_comm s.height]
  simp only [pixelStores, List.mem_cons, List.not_mem_nil, or_false] at hd
  rcases hd with rfl | rfl | rfl <;> simp only [rgbAddr] <;> omega

end Sys2Proof.Machine
end

