-- ==== Sys2Proof/Laws/Exec.lean ====
section
/-! SUPPORT. What each command can do, said once: it raises one named error, or it passes all its checks and does its work. -/

namespace Sys2Proof.Machine

theorem execCompress_done {s : State} (hd : s.dimsOK = true) (h3 : s.dims3OK = true) (hf : s.frameOK = true) :
    execCompress s = .next s.compressed := by simp [execCompress, hd, h3, hf]

theorem execCrop_done {s : State} (hd : s.dimsOK = true) (hf : s.frameOK = true) (hc : s.cropOK = true) :
    execCrop s = .next s.cropped := by simp [execCrop, hd, hf, hc]

theorem execTorgb_done {s : State} (hd : s.dimsOK = true) (hf : s.frameOK = true) :
    execTorgb s = .next s.converted := by simp [execTorgb, hd, hf]

/-- COMPRESS's four outcomes, each with its guard (60_exceptions.md R216). -/
theorem execCompress_cases (s : State) :
    (s.dimsOK = false ∧ execCompress s = .next (s.raise .invalidDimensions)) ∨
    (s.dimsOK = true ∧ s.dims3OK = false ∧ execCompress s = .next (s.raise .invalidDimensions)) ∨
    (s.dimsOK = true ∧ s.dims3OK = true ∧ s.frameOK = false ∧ execCompress s = .next (s.raise .invalidFrameBuffer)) ∨
    (s.dimsOK = true ∧ s.dims3OK = true ∧ s.frameOK = true ∧ execCompress s = .next s.compressed) := by
  simp only [execCompress]
  cases s.dimsOK <;> cases s.dims3OK <;> cases s.frameOK <;> simp

/-- CROP's four outcomes, each with its guard (60_exceptions.md R216). -/
theorem execCrop_cases (s : State) :
    (s.dimsOK = false ∧ execCrop s = .next (s.raise .invalidDimensions)) ∨
    (s.dimsOK = true ∧ s.frameOK = false ∧ execCrop s = .next (s.raise .invalidFrameBuffer)) ∨
    (s.dimsOK = true ∧ s.frameOK = true ∧ s.cropOK = false ∧ execCrop s = .next (s.raise .invalidCropParameters)) ∨
    (s.dimsOK = true ∧ s.frameOK = true ∧ s.cropOK = true ∧ execCrop s = .next s.cropped) := by
  simp only [execCrop]
  cases s.dimsOK <;> cases s.frameOK <;> cases s.cropOK <;> simp

/-- TORGB's three outcomes, each with its guard (60_exceptions.md R216). -/
theorem execTorgb_cases (s : State) :
    (s.dimsOK = false ∧ execTorgb s = .next (s.raise .invalidDimensions)) ∨
    (s.dimsOK = true ∧ s.frameOK = false ∧ execTorgb s = .next (s.raise .invalidFrameBuffer)) ∨
    (s.dimsOK = true ∧ s.frameOK = true ∧ execTorgb s = .next s.converted) := by
  simp only [execTorgb]
  cases s.dimsOK <;> cases s.frameOK <;> simp

/-- Every command answers a next state, in one of these four ways. -/
theorem exec_cases (i : Instr) (s : State) :
    (∃ e, e ≠ .noError ∧ exec i s = .next (s.raise e)) ∨
    (i = .compress ∧ s.dimsOK = true ∧ s.dims3OK = true ∧ s.frameOK = true ∧ exec i s = .next s.compressed) ∨
    (i = .crop ∧ s.dimsOK = true ∧ s.frameOK = true ∧ s.cropOK = true ∧ exec i s = .next s.cropped) ∨
    (i = .torgb ∧ s.dimsOK = true ∧ s.frameOK = true ∧ exec i s = .next s.converted) := by
  cases i
  · rcases execCompress_cases s with h | h | h | h
    · exact .inl ⟨_, by decide, h.2⟩
    · exact .inl ⟨_, by decide, h.2.2⟩
    · exact .inl ⟨_, by decide, h.2.2.2⟩
    · exact .inr (.inl ⟨rfl, h⟩)
  · rcases execCrop_cases s with h | h | h | h
    · exact .inl ⟨_, by decide, h.2⟩
    · exact .inl ⟨_, by decide, h.2.2⟩
    · exact .inl ⟨_, by decide, h.2.2.2⟩
    · exact .inr (.inr (.inl ⟨rfl, h⟩))
  · rcases execTorgb_cases s with h | h | h
    · exact .inl ⟨_, by decide, h.2⟩
    · exact .inl ⟨_, by decide, h.2.2⟩
    · exact .inr (.inr (.inr ⟨rfl, h⟩))

end Sys2Proof.Machine
end

