-- ==== Sys2Proof/Laws/Indices.lean ====
section
/-! SUPPORT. Which indices a loop nest stores, that the order of stores with distinct indices does not matter, and the arithmetic
of the commands' output sides. -/

namespace Sys2Proof.Machine

theorem flatMap_singleton_map {α β : Type} (l : List α) (f : α → β) : (l.flatMap fun a => [f a]) = l.map f := by
  induction l <;> simp [*]

/-- Row-major addresses run through `0 .. h*w - 1` in ascending order. -/
theorem range_rowMajor (h w : Nat) :
    ((List.range h).flatMap fun r => (List.range w).map fun c => r * w + c) = List.range (h * w) := by
  induction h with
  | zero => simp
  | succ h ih => rw [List.range_succ, List.flatMap_append, ih, Nat.succ_mul, List.range_add]; simp

theorem byteNest_indices (h w : Nat) (f : Nat → Nat → Byte) :
    (loopNest h w fun r c => [(r * w + c, f r c)]).map Prod.fst = List.range (h * w) := by
  simpa only [loopNest, List.map_flatMap, List.map_cons, List.map_nil, flatMap_singleton_map, List.map_map,
    Function.comp_def] using range_rowMajor h w

theorem range_pairs (n b : Nat) :
    ((List.range n).flatMap fun c => [b + 2 * c, b + (2 * c + 1)]) = (List.range (2 * n)).map (b + ·) := by
  induction n with
  | zero => simp
  | succ n ih => rw [List.range_succ, List.flatMap_append, ih, Nat.mul_succ, List.range_succ, List.range_succ]; simp

theorem pairNest_indices (h w : Nat) (hw : w % 2 = 0) (f g : Nat → Nat → Byte) :
    (loopNest h (w / 2) fun r c => [(r * w + 2 * c, f r c), (r * w + (2 * c + 1), g r c)]).map Prod.fst
      = List.range (h * w) := by
  simp only [loopNest, List.map_flatMap, List.map_cons, List.map_nil, range_pairs, show 2 * (w / 2) = w by omega]
  exact range_rowMajor h w

theorem range_triples (n b : Nat) :
    ((List.range n).flatMap fun c => [3 * (b + c), 3 * (b + c) + 1, 3 * (b + c) + 2]) = (List.range (3 * n)).map (3 * b + ·) := by
  induction n with
  | zero => simp
  | succ n ih =>
    rw [List.range_succ, List.flatMap_append, ih, Nat.mul_succ, List.range_succ, List.range_succ, List.range_succ]
    simp; omega

/-- Making stores with distinct indices in another order gives the same buffer. -/
theorem Memory.writeAll_perm {m : Memory} (hm : Memory.wf m) {l l' : List Host.Cell} (hp : l.Perm l')
    (hn : (l'.map Prod.fst).Nodup) : Memory.writeAll m l = Memory.writeAll m l' := by
  have huniq : ∀ c ∈ l', ∀ d ∈ l', c.1 = d.1 → c = d := fun c hc d hd h => List.inj_on_of_nodup_map hn hc hd h
  refine Memory.ext_read (Memory.wf_writeAll hm _) (Memory.wf_writeAll hm _) fun a => ?_
  by_cases h : ∃ c ∈ l', c.1 = a
  · obtain ⟨⟨a, v⟩, hc, rfl⟩ := h
    rw [Memory.read_writeAll_of_stored hc fun d hd he => by rw [huniq d hd _ hc he]]
    exact Memory.read_writeAll_of_stored (hp.mem_iff.2 hc) fun d hd he => by rw [huniq d (hp.mem_iff.1 hd) _ hc he]
  · rw [Memory.read_writeAll_of_not_stored fun c hc he => h ⟨c, hc, he⟩,
      Memory.read_writeAll_of_not_stored fun c hc he => h ⟨c, hp.mem_iff.1 hc, he⟩]

/-- An index that the stores run through has been written. -/
theorem Memory.written_of_indices {m : Memory} {l : List Host.Cell} {n a : Nat} (hl : l.map Prod.fst = List.range n)
    (ha : a < n) : ∃ v, Memory.read (Memory.writeAll m l) a = some v := by
  have : a ∈ l.map Prod.fst := by rw [hl]; exact List.mem_range.2 ha
  obtain ⟨⟨a, v⟩, hc, rfl⟩ := List.mem_map.1 this
  have hn : (l.map Prod.fst).Nodup := by rw [hl]; exact List.nodup_range
  exact ⟨v, Memory.read_writeAll_of_stored hc fun d hd he => by rw [List.inj_on_of_nodup_map hn hd hc he]⟩

/-- `(h/2) * w = (w*h)/2` for an even `h`: a chroma plane has half the rows of the luma plane. -/
theorem half_rows {w h : Nat} (hh : h % 2 = 0) : h / 2 * w = w * h / 2 := by
  obtain ⟨k, rfl⟩ : ∃ k, h = 2 * k := ⟨h / 2, by omega⟩
  rw [show w * (2 * k) = 2 * (k * w) by ring, Nat.mul_div_cancel_left _ (by norm_num),
    Nat.mul_div_cancel_left _ (by norm_num)]

/-- The sides COMPRESS leaves, once its checks have passed: exact thirds, positive and even (41_compress.md R141). -/
theorem State.compress_sides {s : State} (hd : s.dimsOK = true) (h3 : s.dims3OK = true) :
    3 * s.compressWidth = s.width ∧ 3 * s.compressHeight = s.height ∧ 0 < s.compressWidth ∧ 0 < s.compressHeight ∧
      s.compressWidth % 2 = 0 ∧ s.compressHeight % 2 = 0 := by
  have := s.dimsOK_iff.1 hd
  have := s.dims3OK_iff.1 h3
  simp only [State.compressWidth, State.compressHeight]
  omega

/-- The sides CROP leaves, once its checks have passed: positive and even (42_crop.md R162). -/
theorem State.crop_sides {s : State} (hd : s.dimsOK = true) (hc : s.cropOK = true) :
    s.cropWidth + s.cropw = s.width ∧ s.cropHeight + s.croph = s.height ∧ 0 < s.cropWidth ∧ 0 < s.cropHeight ∧
      s.cropWidth % 2 = 0 ∧ s.cropHeight % 2 = 0 := by
  have := s.dimsOK_iff.1 hd
  have := s.cropOK_iff.1 hc
  simp only [State.cropWidth, State.cropHeight]
  omega

/-- Two loads of one written byte, in two states, agree whatever draws they would have used. -/
theorem State.load_eq_of_written {s s' : State} {b : Buffer} {a site site' : Nat}
    (h : Memory.read (s.buffer b) a = Memory.read (s'.buffer b) a) (hw : ∃ v, Memory.read (s.buffer b) a = some v) :
    s.load b a site = s'.load b a site' := by
  obtain ⟨v, hv⟩ := hw
  rw [State.load_of_written hv, State.load_of_written (h ▸ hv)]

/-- What a channel's byte is, in one formula. -/
theorem channel_toNat (n : Int) : ((channel n).toNat : Int) = max 0 (min 255 (n / 1000000)) := by
  have key : ∀ q : Int, ((BitVec.ofNat 8 (clamp q 0 255).toNat).toNat : Int) = max 0 (min 255 q) := by
    intro q
    have : (clamp q 0 255).toNat < 2 ^ 8 ∧ ((clamp q 0 255).toNat : Int) = max 0 (min 255 q) := by
      unfold clamp; split_ifs <;> omega
    rw [BitVec.toNat_ofNat, Nat.mod_eq_of_lt this.1, this.2]
  exact key _

end Sys2Proof.Machine
end

