-- ==== Sys2Proof/Laws/Step.lean ====
section
/-! SUPPORT. What a step can do: nothing when no host operation is pending, else the operation at the head of the script. One
lemma per host operation. -/

namespace Sys2Proof.Machine

theorem step_idle {s : State} (h : s.script = []) : step s = .next s := by simp [step, stepHost, h]

theorem step_op {s : State} {op : HostOp} {rest : List HostOp} (h : s.script = op :: rest) :
    step s = runHostOp op { s with script := rest } := by simp [step, stepHost, h]

/-- An operation no port can carry stops the step, by name. -/
theorem runHostOp_fault {op : HostOp} {s : State} {f : Fault} (h : op.portFault s.cfg = some f) :
    runHostOp op s = .fault f := by simp [runHostOp, h]

theorem HostOp.wf_iff {c : Config} {op : HostOp} : op.wf c = true ↔ op.portFault c = none := by
  simp [HostOp.wf]

/-- A well-formed operation has its effect. -/
theorem runHostOp_wf {op : HostOp} {s : State} (h : op.wf s.cfg = true) : runHostOp op s = performOp op s := by
  simp [runHostOp, HostOp.wf_iff.1 h]

/-- A step on an operation no port can carry. -/
theorem step_fault {s : State} {op : HostOp} {rest : List HostOp} {f : Fault} (hs : s.script = op :: rest)
    (h : op.portFault s.cfg = some f) : step s = .fault f := (step_op hs).trans (runHostOp_fault h)

/-- A step on an operation the ports can carry. -/
theorem step_wf {s : State} {op : HostOp} {rest : List HostOp} (hs : s.script = op :: rest)
    (h : op.wf s.cfg = true) : step s = performOp op { s with script := rest } :=
  (step_op hs).trans (runHostOp_wf h)

/-- A step that answers a next state ran an operation the ports can carry. -/
theorem wf_of_step_next {s t : State} {op : HostOp} {rest : List HostOp} (hs : s.script = op :: rest)
    (h : step s = .next t) : op.wf s.cfg = true := by
  cases hf : op.portFault s.cfg with
  | none => exact HostOp.wf_iff.2 hf
  | some f => rw [step_fault hs hf] at h; cases h

theorem Reg.ofNum_num (r : Reg) : Reg.ofNum r.num = some r := by cases r <;> rfl

theorem Reg.num_of_ofNum {no : Nat} {r : Reg} (h : Reg.ofNum no = some r) : no = r.num := by
  unfold Reg.ofNum at h
  split at h <;> cases h <;> rfl

/-- Numbers 14 and above name no register. -/
theorem Reg.ofNum_eq_none {no : Nat} (h : 14 ≤ no) : Reg.ofNum no = none := by
  unfold Reg.ofNum
  split <;> first | omega | rfl

/-- A register write whose value is wider than the port stops the step, by name. -/
theorem writeReg_portFault {c : Config} {r : Reg} {v : Nat} (h : 2 ^ r.bits c ≤ v) :
    HostOp.portFault c (.writeReg r.num v) = some (.valueWiderThanPort r.num v) := by
  simp only [HostOp.portFault, Reg.ofNum_num, if_neg (Nat.not_lt.2 h)]

theorem writeReg_wf_iff {c : Config} {r : Reg} {v : Nat} :
    HostOp.wf c (.writeReg r.num v) = true ↔ v < 2 ^ r.bits c := by
  simp only [HostOp.wf, HostOp.portFault, Reg.ofNum_num]
  split <;> simp_all

theorem mem_wf_iff {c : Config} {b : Buffer} {a : Nat} : HostOp.wf c (.readMem b a) = true ↔ a < b.capacity c := by
  simp only [HostOp.wf, HostOp.portFault]
  split <;> simp_all

theorem writeMem_wf_iff {c : Config} {b : Buffer} {a : Nat} {v : Byte} :
    HostOp.wf c (.writeMem b a v) = true ↔ a < b.capacity c := by
  simp only [HostOp.wf, HostOp.portFault]
  split <;> simp_all

/-- A write of CMD stores the word and runs the command it names, or raises IllegalCommand (30_encoding.md R93, R94). -/
theorem hostWriteReg_cmd (v : Nat) (s : State) :
    hostWriteReg 0 v s = runCommand (BitVec.ofNat 8 v) { s with cmd := BitVec.ofNat 8 v } := rfl

/-- A write of any other register runs nothing. -/
theorem hostWriteReg_other {r : Reg} (hr : r ≠ .cmd) (v : Nat) (s : State) :
    hostWriteReg r.num v s = .next (s.hostSetReg r v) := by
  cases r <;> first | exact absurd rfl hr | rfl

theorem hostWriteReg_absent {no : Nat} (h : Reg.ofNum no = none) (v : Nat) (s : State) :
    hostWriteReg no v s = .next s := by simp [hostWriteReg, h]

theorem writeCmd_wf_iff {c : Config} {v : Nat} : HostOp.wf c (.writeReg 0 v) = true ↔ v < 2 ^ 8 :=
  writeReg_wf_iff (r := .cmd)

/-- A step whose operation writes CMD. -/
theorem step_writeCmd {s : State} {v : Nat} {rest : List HostOp} (hs : s.script = .writeReg 0 v :: rest)
    (hv : v < 2 ^ 8) :
    step s = runCommand (BitVec.ofNat 8 v) { s with cmd := BitVec.ofNat 8 v, script := rest } :=
  step_wf hs (writeCmd_wf_iff.2 hv)

theorem decode_encode (i : Instr) : decode (encode i) = .ok i := by cases i <;> rfl

/-- The decoder accepts the three words of the opcode map and no other (30_encoding.md R91, R94). -/
theorem decode_ok_iff (w : Byte) (i : Instr) : decode w = .ok i ↔ w = encode i := by
  revert w i
  have : ∀ w : Byte, (∀ i ∈ [Instr.compress, .crop, .torgb], decode w = .ok i ↔ w = encode i) := by decide
  intro w i
  exact this w i (by cases i <;> simp)

theorem decode_error (w : Byte) (h : ∀ i, w ≠ encode i) : decode w = .error (.illegalCommand w) := by
  cases hd : decode w with
  | ok i => exact absurd ((decode_ok_iff w i).1 hd) (h i)
  | error e =>
    unfold decode at hd
    split at hd <;> simp_all

theorem runCommand_legal (i : Instr) (s : State) : runCommand (encode i) s = exec i s := by
  simp [runCommand, decode_encode]

theorem runCommand_illegal {w : Byte} (h : ∀ i, w ≠ encode i) (s : State) :
    runCommand w s = .next (s.raise .illegalCommand) := by
  simp [runCommand, decode_error w h]

end Sys2Proof.Machine
end

