-- ==== Sys2Proof/Laws/Legal.lean ====
section
/-! SUPPORT. Pieces of the legal-state invariant: what is enough for the registers and the buffers of a state to fit, and what a
run of one more step is. -/

namespace Sys2Proof.Machine

theorem Status.code_lt (x : Status) : x.code.toNat < 2 ^ 2 := x.code.isLt

theorem ErrCode.code_lt (x : ErrCode) : x.code.toNat < 2 ^ 3 := x.code.isLt

/-- A state with the operand registers of one whose registers fit, and output registers that fit. -/
theorem State.regsFit_of {s t : State} (h : s.RegsFit) (hc : t.cfg = s.cfg) (hw : t.width = s.width)
    (hh : t.height = s.height) (hcw : t.cropw = s.cropw) (hch : t.croph = s.croph) (hy : t.ylen = s.ylen)
    (hu : t.uvlen = s.uvlen) (ow : t.owidth < 2 ^ s.cfg.n) (oh : t.oheight < 2 ^ s.cfg.n)
    (oy : t.oylen < 2 ^ (2 * s.cfg.n)) (ou : t.ouvlen < 2 ^ (2 * s.cfg.n)) (org : t.orgblen < 2 ^ (2 * s.cfg.n + 2)) :
    t.RegsFit := by
  intro r
  rw [hc]
  cases r
  case cmd => exact t.cmd.isLt
  case status => exact t.status.code_lt
  case err => exact t.err.code_lt
  case width => have := h .width; simp only [State.readReg, hw] at *; exact this
  case height => have := h .height; simp only [State.readReg, hh] at *; exact this
  case cropw => have := h .cropw; simp only [State.readReg, hcw] at *; exact this
  case croph => have := h .croph; simp only [State.readReg, hch] at *; exact this
  case ylen => have := h .ylen; simp only [State.readReg, hy] at *; exact this
  case uvlen => have := h .uvlen; simp only [State.readReg, hu] at *; exact this
  case owidth => exact ow
  case oheight => exact oh
  case oylen => exact oy
  case ouvlen => exact ou
  case orgblen => exact org

/-- A state with the input buffers of one whose buffers fit, and output buffers that fit. -/
theorem State.buffersFit_of {s t : State} (h : s.BuffersFit) (hc : t.cfg = s.cfg) (hy : t.yin = s.yin) (hu : t.uvin = s.uvin)
    (oy : Memory.wf t.yout ∧ ∀ c ∈ t.yout, c.1 < Buffer.yout.capacity s.cfg)
    (ou : Memory.wf t.uvout ∧ ∀ c ∈ t.uvout, c.1 < Buffer.uvout.capacity s.cfg)
    (org : Memory.wf t.rgbout ∧ ∀ c ∈ t.rgbout, c.1 < Buffer.rgbout.capacity s.cfg) : t.BuffersFit := by
  intro b
  rw [hc]
  cases b
  case yin => have := h .yin; simp only [State.buffer, hy] at *; exact this
  case uvin => have := h .uvin; simp only [State.buffer, hu] at *; exact this
  case yout => exact oy
  case uvout => exact ou
  case rgbout => exact org

/-- Stores below a capacity keep a buffer legal. -/
theorem Memory.fits_writeAll {m : Memory} {l : List Host.Cell} {n k : Nat} (h : Memory.wf m ∧ ∀ c ∈ m, c.1 < k)
    (hl : l.map Prod.fst = List.range n) (hn : n ≤ k) :
    Memory.wf (Memory.writeAll m l) ∧ ∀ c ∈ Memory.writeAll m l, c.1 < k := by
  refine ⟨Memory.wf_writeAll h.1 l, fun c hc => ?_⟩
  rcases Memory.mem_writeAll hc with hc | hc
  · have : c.1 ∈ l.map Prod.fst := List.mem_map_of_mem hc
    rw [hl, List.mem_range] at this
    omega
  · exact h.2 c hc

/-- The bounds of 10_state.md R29 and 20_memory.md R62: with both sides below `2^N` every plane fits its buffer and every length its
register. -/
theorem plane_bounds {n w h : Nat} (hn : 1 ≤ n) (hw : w < 2 ^ n) (hh : h < 2 ^ n) :
    w * h < 2 ^ (2 * n) ∧ w * h / 2 < 2 ^ (2 * n - 1) ∧ w * h / 2 < 2 ^ (2 * n) ∧ 3 * w * h < 3 * 2 ^ (2 * n) ∧
      3 * w * h < 2 ^ (2 * n + 2) := by
  have h1 : w * h < 2 ^ (2 * n) := by
    rw [Nat.two_mul, Nat.pow_add]
    exact Nat.mul_lt_mul'' hw hh
  have h2 : 2 ^ (2 * n) = 2 * 2 ^ (2 * n - 1) := by rw [← Nat.pow_succ']; congr 1; omega
  have h3 : 2 ^ (2 * n + 2) = 4 * 2 ^ (2 * n) := by rw [Nat.pow_add]; ring
  have h4 : 3 * w * h = 3 * (w * h) := by ring
  omega

/-- A stored load copies its source byte. -/
theorem CopiedTo.of_load {s : State} {b : Buffer} {m : Memory} {src dst site : Nat}
    (h : Memory.read m dst = some (s.load b src site)) : CopiedTo (s.buffer b) src m dst :=
  ⟨⟨_, h⟩, fun v hv => by rw [h, State.load_of_written hv]⟩

/-- The memory of the reset state is in canonical form. -/
theorem State.reset_memories_wf (b : Buffer) : Memory.wf (State.reset.buffer b) := by cases b <;> exact List.Pairwise.nil

end Sys2Proof.Machine

namespace Sys2Proof.Laws

/-- A run whose first step answers a next state. -/
theorem run_succ (M : Host.Core) (k : Nat) {s t : M.State} (h : M.step s = .next t) : M.run (k + 1) s = M.run k t := by
  simp only [Host.Core.run, h]

end Sys2Proof.Laws
end

