-- ==== Sys2Proof/Laws/HostScript.lean ====
section
/-! SUPPORT. What each statement of a host script does, said once, and how a script is made of its statements. -/

namespace Sys2Proof.Machine

@[simp] theorem andThen_next (t : State) (k : State → Host.Outcome State Fault Refusal) : andThen (.next t) k = k t := rfl

@[simp] theorem andThen_fault (f : Fault) (k : State → Host.Outcome State Fault Refusal) :
    andThen (.fault f) k = .fault f := rfl

@[simp] theorem andThen_next_right (o : Host.Outcome State Fault Refusal) : andThen o .next = o := by cases o <;> rfl

theorem andThen_assoc (o : Host.Outcome State Fault Refusal) (k l : State → Host.Outcome State Fault Refusal) :
    andThen (andThen o k) l = andThen o fun t => andThen (k t) l := by cases o <;> rfl

/-- Host operations one after another, without the script that holds them. -/
def runOps : List HostOp → State → Host.Outcome State Fault Refusal
  | [], s => .next s
  | op :: ops, s => andThen (runHostOp op s) (runOps ops)

theorem runOps_append (l l' : List HostOp) (s : State) : runOps (l ++ l') s = andThen (runOps l s) (runOps l') := by
  induction l generalizing s with
  | nil => rfl
  | cons op l ih =>
    rw [List.cons_append, runOps, runOps, andThen_assoc, show runOps (l ++ l') = _ from funext ih]

/-- A command neither reads nor writes the pending operations. -/
theorem exec_script (i : Instr) (s : State) (l : List HostOp) :
    exec i { s with script := l } = andThen (exec i s) fun t => .next { t with script := l } := by
  have hd : State.dimsOK { s with script := l } = s.dimsOK := rfl
  have h3 : State.dims3OK { s with script := l } = s.dims3OK := rfl
  have hf : State.frameOK { s with script := l } = s.frameOK := rfl
  have hc : State.cropOK { s with script := l } = s.cropOK := rfl
  cases i <;> simp only [exec, execCompress, execCrop, execTorgb, hd, h3, hf, hc] <;> split_ifs <;> rfl

theorem runCommand_script (w : Byte) (s : State) (l : List HostOp) :
    runCommand w { s with script := l } = andThen (runCommand w s) fun t => .next { t with script := l } := by
  unfold runCommand
  split
  · exact exec_script _ _ _
  · rfl

/-- A host operation neither reads nor writes the pending operations. -/
theorem runHostOp_script (op : HostOp) (s : State) (l : List HostOp) :
    runHostOp op { s with script := l } = andThen (runHostOp op s) fun t => .next { t with script := l } := by
  unfold runHostOp
  cases op.portFault s.cfg with
  | some f => rfl
  | none =>
    cases op with
    | writeReg no v =>
      simp only [performOp]
      cases h : Reg.ofNum no with
      | none => simp only [hostWriteReg_absent h]; rfl
      | some r =>
        obtain rfl := Reg.num_of_ofNum h
        by_cases hr : r = .cmd
        · subst hr; exact runCommand_script _ { s with cmd := BitVec.ofNat 8 v } l
        · simp only [hostWriteReg_other hr]; cases r <;> rfl
    | readReg no => 
      simp only [performOp, hostReadReg, hostRegValue, andThen_next]
      cases Reg.ofNum no with
      | none => rfl
      | some r => cases r <;> rfl
    | writeMem b a v => cases b <;> rfl
    | readMem b a => cases b <;> rfl
    | reset => rfl

/-- A host operation leaves the pending operations as they are. -/
theorem script_of_runHostOp {op : HostOp} {s t : State} (h : runHostOp op s = .next t) : t.script = s.script := by
  have h' := runHostOp_script op s s.script
  rw [h] at h'
  rw [andThen_next] at h'
  have := congrArg State.script (Host.Outcome.next.inj h')
  exact this

/-- A script runs as its operations one after another. -/
theorem perform_eq_runOps (p : List Stmt) (s : State) : perform p s = runOps (scriptOps p) s := by
  unfold perform
  generalize scriptOps p = ops
  induction ops generalizing s with
  | nil => rfl
  | cons op ops ih =>
    have hstep : step { s with script := op :: (ops ++ s.script) } =
        andThen (runHostOp op s) fun t => .next { t with script := ops ++ s.script } :=
      (step_op rfl).trans (runHostOp_script op s _)
    show Sys2Proof.core.run (ops.length + 1) { s with script := op :: (ops ++ s.script) } = _
    rw [runOps]
    cases h : runHostOp op s with
    | next t =>
      rw [h] at hstep
      rw [andThen_next, ← script_of_runHostOp h] at hstep
      rw [← script_of_runHostOp h]
      exact (Sys2Proof.Laws.run_succ Sys2Proof.core ops.length (s := ({ s with script := op :: (ops ++ t.script) } : State))
        (t := ({ t with script := ops ++ t.script } : State)) hstep).trans (ih t)
    | fault f => simp only [h] at hstep; simp [Host.Core.run, Sys2Proof.core, hstep]
    | refused r => simp only [h] at hstep; simp [Host.Core.run, Sys2Proof.core, hstep, andThen]

@[simp] theorem perform_nil (s : State) : perform [] s = .next s := rfl

/-- A script is its statements one after another. -/
theorem perform_append (p q : List Stmt) (s : State) : perform (p ++ q) s = andThen (perform p s) (perform q) := by
  rw [perform_eq_runOps, scriptOps, List.flatMap_append, runOps_append, ← scriptOps, ← perform_eq_runOps]
  congr 1
  funext t
  exact (perform_eq_runOps q t).symm

theorem perform_cons (st : Stmt) (p : List Stmt) (s : State) :
    perform (st :: p) s = andThen (perform [st] s) (perform p) := perform_append [st] p s

/-- `WR` of an operand register. -/
theorem perform_wr {r : Reg} (hr : r ≠ .cmd) {v : Nat} {s : State} (hv : v < 2 ^ r.bits s.cfg) :
    perform [.wr r v] s = .next (s.hostSetReg r v) := by
  simp [perform_eq_runOps, scriptOps, Stmt.ops, runOps, runHostOp_wf (writeReg_wf_iff.2 hv), performOp, hostWriteReg_other hr]

/-- `RD`. -/
theorem perform_rd (r : Reg) (s : State) :
    perform [.rd r] s = .next { s with returned := s.returned ++ [.reg r.num (s.readReg r)] } := by
  simp [perform_eq_runOps, scriptOps, Stmt.ops, runOps, runHostOp, HostOp.portFault, performOp, hostReadReg, hostRegValue,
    Reg.ofNum_num]

/-- A command by its name. -/
theorem perform_run (i : Instr) (s : State) : perform [.run i] s = exec i { s with cmd := encode i } := by
  have hv : (encode i).toNat < 2 ^ 8 := (encode i).isLt
  have hw : BitVec.ofNat 8 (encode i).toNat = encode i := by simp
  simp [perform_eq_runOps, scriptOps, Stmt.ops, runOps, runHostOp_wf (writeCmd_wf_iff.2 hv), performOp, hostWriteReg_cmd, hw,
    runCommand_legal]

/-- The cells that `LD b, a, bytes` stores. -/
def loadCells (a : Nat) : List Byte → List Host.Cell
  | [] => []
  | v :: vs => (a, v) :: loadCells (a + 1) vs

/-- `LD` into an input buffer. -/
theorem perform_ld {b : Buffer} (hb : b.hostWritable = true) {a : Nat} {bytes : List Byte} {s : State}
    (h : a + bytes.length ≤ b.capacity s.cfg) : perform [.ld b a bytes] s = .next (s.storeAll b (loadCells a bytes)) := by
  rw [perform_eq_runOps]
  show runOps (loadBytes b a bytes ++ []) s = _
  rw [List.append_nil]
  induction bytes generalizing a s with
  | nil => cases b <;> rfl
  | cons v vs ih =>
    rw [List.length_cons] at h
    rw [loadBytes, runOps, runHostOp_wf (writeMem_wf_iff.2 (by omega)), performOp, hostWriteMem, if_pos hb, andThen_next,
      ih (by rw [State.setBuffer_cfg]; omega)]
    cases b <;> rfl

/-- What `LD` leaves at each index. -/
theorem read_loadCells (m : Memory) (a : Nat) (bytes : List Byte) {i : Nat} (hi : i < bytes.length) :
    Memory.read (Memory.writeAll m (loadCells a bytes)) (a + i) = some bytes[i] := by
  induction bytes generalizing m a i with
  | nil => simp at hi
  | cons v vs ih =>
    rw [loadCells, Memory.writeAll_cons]
    cases i with
    | zero =>
      have : ∀ (l : List Byte) (k : Nat), a < k → ∀ c ∈ loadCells k l, c.1 ≠ a := by
        intro l
        induction l with
        | nil => intro k _ c hc; simp [loadCells] at hc
        | cons x l ihl =>
          intro k hk c hc
          rcases List.mem_cons.1 hc with rfl | hc
          · simp only; omega
          · exact ihl (k + 1) (by omega) c hc
      simp only [Nat.add_zero, Memory.read_writeAll_of_not_stored (this vs (a + 1) (by omega)), Memory.read_write_same,
        List.getElem_cons_zero]
    | succ i =>
      rw [show a + (i + 1) = (a + 1) + i by omega, ih _ _ (by simpa using hi)]
      rfl

/-- The results that `RDM b, a, n` notes. -/
def State.readResults (s : State) (b : Buffer) (a n : Nat) : List HostResult :=
  (List.range n).map fun i => .byte b (a + i) (hostByteValue (s.drew i) b (a + i))

/-- `RDM`. -/
theorem perform_rdm {b : Buffer} {a n : Nat} {s : State} (h : a + n ≤ b.capacity s.cfg) :
    perform [.rdm b a n] s =
      .next { s with returned := s.returned ++ s.readResults b a n, draws := s.draws + n } := by
  rw [perform_eq_runOps]
  show runOps ((List.range n).map (fun i => HostOp.readMem b (a + i)) ++ []) s = _
  rw [List.append_nil]
  induction n with
  | zero => simp [State.readResults, runOps]
  | succ n ih =>
    rw [List.range_succ, List.map_append, runOps_append, ih (by omega), andThen_next, List.map_singleton, runOps,
      runHostOp_wf (mem_wf_iff.2 (by simp only; omega))]
    simp only [performOp, hostReadMem, runOps, State.readResults, List.range_succ, List.map_append, List.map_singleton,
      List.append_assoc, Nat.add_assoc, andThen_next]
    rfl

/-- `RDM` of bytes that the host may rely on notes those bytes. -/
theorem State.readResults_of_written {s : State} {b : Buffer} {n : Nat} {v : Nat → Byte}
    (h : ∀ a < n, s.inExtent b a = true ∧ Memory.read (s.buffer b) a = some (v a)) :
    s.readResults b 0 n = (List.range n).map fun a => .byte b a (v a) := by
  refine List.map_congr_left fun a ha => ?_
  obtain ⟨h1, h2⟩ := h a (List.mem_range.1 ha)
  have e : (s.drew a).inExtent b a = true := by cases b <;> exact h1
  have r : Memory.read ((s.drew a).buffer b) a = some (v a) := by cases b <;> exact h2
  rw [Nat.zero_add, hostByteValue, if_pos e, State.load_of_written r]

/-- `RDM b, 0, n` of bytes that the host may rely on. -/
theorem perform_rdm_written {b : Buffer} {n : Nat} {s : State} (v : Nat → Byte) (hn : n ≤ b.capacity s.cfg)
    (h : ∀ a < n, s.inExtent b a = true ∧ Memory.read (s.buffer b) a = some (v a)) :
    perform [.rdm b 0 n] s =
      .next { s with returned := s.returned ++ (List.range n).map fun a => .byte b a (v a), draws := s.draws + n } := by
  rw [perform_rdm (by rw [Nat.zero_add]; exact hn), State.readResults_of_written h]

/-- The latest read of a register. -/
theorem State.lastRead_append {s : State} {l l' : List HostResult} {r : Reg} {v : Nat} (h : s.returned = l ++ .reg r.num v :: l')
    (hl : ∀ x ∈ l', HostResult.regValue r x = none) : s.lastRead r = v := by
  have : (l'.reverse.findSome? (HostResult.regValue r)) = none := by
    rw [List.findSome?_eq_none_iff]; intro x hx; exact hl x (List.mem_reverse.1 hx)
  simp [State.lastRead, h, List.findSome?_append, this, HostResult.regValue]

/-- The bytes the latest `RDM b, 0, n` gave. -/
theorem State.lastBytes_eq {s : State} {b : Buffer} {n : Nat} {v : Nat → Byte} {l l' : List HostResult}
    (h : s.returned = l ++ (List.range n).map (fun a => .byte b a (v a)) ++ l')
    (hl : ∀ a, ∀ x ∈ l', HostResult.byteValue b a x = none) : s.lastBytes b n = (List.range n).map v := by
  refine List.map_congr_left fun a ha => ?_
  have later : l'.reverse.findSome? (HostResult.byteValue b a) = none :=
    List.findSome?_eq_none_iff.2 fun x hx => hl a x (List.mem_reverse.1 hx)
  have here : ∀ n, a < n → ((List.range n).map (fun a => HostResult.byte b a (v a))).reverse.findSome?
      (HostResult.byteValue b a) = some (v a) := by
    intro n
    induction n with
    | zero => intro h; omega
    | succ n ih =>
      intro h
      rw [List.range_succ, List.map_append, List.reverse_append, List.findSome?_append]
      by_cases e : n = a
      · subst e; simp [HostResult.byteValue]
      · rw [ih (by omega)]; simp [HostResult.byteValue, e]
  simp [h, List.findSome?_append, later, here n (List.mem_range.1 ha)]

/-! ### The parts of the pseudo-instructions -/

/-- Several `RD`s in a row. -/
theorem perform_rds (rs : List Reg) (s : State) :
    perform (rs.map .rd) s =
      .next { s with returned := s.returned ++ rs.map fun r => .reg r.num (s.readReg r) } := by
  induction rs generalizing s with
  | nil => simp
  | cons r rs ih =>
    have same : ∀ (l : List HostResult) (r : Reg), State.readReg { s with returned := l } r = s.readReg r := by
      intro l r; cases r <;> rfl
    rw [List.map_cons, perform_cons, perform_rd, andThen_next, ih]
    simp [same]

/-- What `LOADFRAME f` leaves. -/
def State.loaded (s : State) (f : Frame) : State :=
  { s with
    yin := Memory.writeAll s.yin (loadCells 0 f.y), uvin := Memory.writeAll s.uvin (loadCells 0 f.uv)
    width := f.w, height := f.h, ylen := f.y.length, uvlen := f.uv.length }

theorem perform_loadFrame {f : Frame} {s : State} (h : f.Fits s.cfg) : perform (loadFrame f) s = .next (s.loaded f) := by
  obtain ⟨hw, hh, hy, hu, hc⟩ := h
  have hyc : 0 + f.y.length ≤ Buffer.yin.capacity s.cfg := by rw [Nat.zero_add]; exact hy.le
  have huc : 0 + f.uv.length ≤ Buffer.uvin.capacity s.cfg := by rw [Nat.zero_add]; exact hc
  rw [loadFrame, perform_cons, perform_ld rfl hyc, andThen_next, perform_cons,
    perform_ld (s := s.storeAll .yin (loadCells 0 f.y)) rfl huc, andThen_next,
    perform_cons, perform_wr (by decide) (by exact hw), andThen_next,
    perform_cons, perform_wr (by decide) (by exact hh), andThen_next,
    perform_cons, perform_wr (by decide) (by exact hy), andThen_next,
    perform_wr (by decide) (by exact hu)]
  rfl

/-- The bytes that `LOADFRAME f` puts in the input planes. -/
theorem State.read_loaded_yin (s : State) (f : Frame) {a : Nat} (h : a < f.y.length) :
    Memory.read (s.loaded f).yin a = some (f.y.getD a 0#8) := by
  have := read_loadCells s.yin 0 f.y h
  rw [Nat.zero_add] at this
  rw [List.getD_eq_getElem _ _ h]
  exact this

theorem State.read_loaded_uvin (s : State) (f : Frame) {a : Nat} (h : a < f.uv.length) :
    Memory.read (s.loaded f).uvin a = some (f.uv.getD a 0#8) := by
  have := read_loadCells s.uvin 0 f.uv h
  rw [Nat.zero_add] at this
  rw [List.getD_eq_getElem _ _ h]
  exact this

/-- A command on a frame that has just been loaded. -/
theorem perform_loadFrame_run {f : Frame} {s : State} (h : f.Fits s.cfg) (i : Instr) :
    perform (loadFrame f ++ [.run i]) s = exec i { s.loaded f with cmd := encode i } := by
  rw [perform_append, perform_loadFrame h, andThen_next, perform_run]

theorem perform_loadFrame_crop {f : Frame} {s : State} {cw ch : Nat} (h : f.Fits s.cfg) (hw : cw < 2 ^ s.cfg.n)
    (hh : ch < 2 ^ s.cfg.n) :
    perform (loadFrame f ++ [.wr .cropw cw, .wr .croph ch, .run .crop]) s =
      exec .crop { s.loaded f with cmd := encode .crop, cropw := cw, croph := ch } := by
  rw [perform_append, perform_loadFrame h, andThen_next, perform_cons, perform_wr (by decide) (by exact hw), andThen_next,
    perform_cons, perform_wr (by decide) (by exact hh), andThen_next, perform_run]
  rfl

/-- A conforming frame value can be loaded. -/
theorem Frame.Conforming.fits {c : Config} {f : Frame} (h : f.Conforming c) : f.Fits c := by
  obtain ⟨⟨h1, h2, h3, h4⟩, ⟨hy, hu⟩, hw, hh⟩ := h
  have hn : 1 ≤ c.n := by
    rcases Nat.eq_zero_or_pos c.n with e | e
    · rw [e] at hw; omega
    · exact e
  have b := plane_bounds hn hw hh
  exact ⟨hw, hh, by rw [hy]; exact b.1, by rw [hu]; exact b.2.2.1, by rw [hu]; exact b.2.1.le⟩

theorem State.sawDone_after_status (s : State) :
    State.sawDone { s with returned := s.returned ++ [.reg 1 (s.readReg .status)] } = decide (s.status = .done) := by
  have : State.lastRead { s with returned := s.returned ++ [.reg 1 (s.readReg .status)] } .status = s.readReg .status :=
    State.lastRead_append (l := s.returned) (l' := []) rfl (by simp)
  rw [State.sawDone, this]
  cases h : s.status <;> simp [State.readReg, h, Status.code]

/-- `READFRAME` of an output frame whose bytes have been written. -/
theorem readFrame_done {s : State} {vy vu : Nat → Byte} (hs : s.status = .done)
    (hy : s.oylen ≤ Buffer.yout.capacity s.cfg) (hu : s.ouvlen ≤ Buffer.uvout.capacity s.cfg)
    (ry : ∀ a < s.oylen, Memory.read s.yout a = some (vy a)) (ru : ∀ a < s.ouvlen, Memory.read s.uvout a = some (vu a)) :
    readFrame s = .next { s with
      returned := s.returned ++
        ([.reg 1 1, .reg 9 s.owidth, .reg 10 s.oheight, .reg 11 s.oylen, .reg 12 s.ouvlen] ++
          (List.range s.oylen).map (fun a => .byte .yout a (vy a)) ++
          (List.range s.ouvlen).map (fun a => .byte .uvout a (vu a)))
      draws := s.draws + s.oylen + s.ouvlen } := by
  have e : s.status.code.toNat = 1 := by rw [hs]; rfl
  have hd := s.sawDone_after_status.trans (decide_eq_true hs)
  rw [readFrame, perform_rd, andThen_next]
  refine (if_pos hd).trans ?_
  rw [show [Stmt.rd .owidth, .rd .oheight, .rd .oylen, .rd .ouvlen] = [Reg.owidth, .oheight, .oylen, .ouvlen].map .rd
    from rfl, perform_rds, andThen_next]
  rw [State.lastRead_append (r := .oylen) (v := s.oylen) (l := s.returned ++ [.reg 1 1, .reg 9 s.owidth, .reg 10 s.oheight])
      (l' := [.reg 12 s.ouvlen]) (by simp [State.readReg, hs, Status.code, Reg.num]) (by simp [HostResult.regValue, Reg.num]),
    State.lastRead_append (r := .ouvlen) (v := s.ouvlen)
      (l := s.returned ++ [.reg 1 1, .reg 9 s.owidth, .reg 10 s.oheight, .reg 11 s.oylen])
      (l' := []) (by simp [State.readReg, hs, Status.code, Reg.num]) (by simp)]
  rw [perform_cons, perform_rdm_written vy ?_ ?_, andThen_next, perform_rdm_written vu ?_ ?_]
  rotate_left
  · exact hu
  · exact fun a ha => ⟨decide_eq_true ha, ru a ha⟩
  · exact hy
  · exact fun a ha => ⟨decide_eq_true ha, ry a ha⟩
  simp [e, State.readReg, Reg.num]

/-- The end of `toRGB` where the bytes of RGBOUT have been written. -/
theorem readRgb_done {s : State} {v : Nat → Byte} (hs : s.status = .done)
    (hc : s.orgblen ≤ Buffer.rgbout.capacity s.cfg) (hr : ∀ a < s.orgblen, Memory.read s.rgbout a = some (v a)) :
    readRgb s = .next { s with
      returned := s.returned ++ ([.reg 1 1, .reg 13 s.orgblen] ++ (List.range s.orgblen).map (fun a => .byte .rgbout a (v a)))
      draws := s.draws + s.orgblen } := by
  have e : s.status.code.toNat = 1 := by rw [hs]; rfl
  have hd := s.sawDone_after_status.trans (decide_eq_true hs)
  rw [readRgb, perform_rd, andThen_next]
  refine (if_pos hd).trans ?_
  rw [perform_rd, andThen_next]
  rw [State.lastRead_append (r := .orgblen) (v := s.orgblen) (l := s.returned ++ [.reg 1 1])
      (l' := []) (by simp [State.readReg, hs, Status.code, Reg.num]) (by simp)]
  rw [perform_rdm_written v ?_ ?_]
  rotate_left
  · exact hc
  · exact fun a ha => ⟨decide_eq_true ha, hr a ha⟩
  simp [e, State.readReg, Reg.num]

/-- `READFRAME` after an error. -/
theorem readFrame_error {s : State} (hs : s.status = .error) :
    readFrame s = .next { s with returned := s.returned ++ [.reg 1 2, .reg 2 (s.readReg .err)] } := by
  have e : s.status.code.toNat = 2 := by rw [hs]; rfl
  have hd := s.sawDone_after_status.trans (decide_eq_false (by rw [hs]; decide))
  rw [readFrame, perform_rd, andThen_next]
  refine (if_neg (Bool.eq_false_iff.1 hd)).trans ?_
  rw [perform_rd]
  simp [e, State.readReg, Reg.num]

/-- The end of `toRGB` after an error. -/
theorem readRgb_error {s : State} (hs : s.status = .error) :
    readRgb s = .next { s with returned := s.returned ++ [.reg 1 2, .reg 2 (s.readReg .err)] } := by
  have e : s.status.code.toNat = 2 := by rw [hs]; rfl
  have hd := s.sawDone_after_status.trans (decide_eq_false (by rw [hs]; decide))
  rw [readRgb, perform_rd, andThen_next]
  refine (if_neg (Bool.eq_false_iff.1 hd)).trans ?_
  rw [perform_rd]
  simp [e, State.readReg, Reg.num]

end Sys2Proof.Machine
end

