-- ==== Sys2Proof/Laws/PerInstr.lean ====
section
/-! SUPPORT. Statements made instruction by instruction: the command word of each command. -/

namespace Sys2Proof.Laws

/-- A command is well-formed, and its word is decoded back to it (30_encoding.md R91). -/
def CommandWord.Statement (i : Instr) : Prop := i.wf = true ∧ decode (encode i) = .ok i

theorem CommandWord.compress : CommandWord.Statement .compress := ⟨rfl, rfl⟩

theorem CommandWord.crop : CommandWord.Statement .crop := ⟨rfl, rfl⟩

theorem CommandWord.torgb : CommandWord.Statement .torgb := ⟨rfl, rfl⟩

end Sys2Proof.Laws
end

