-- ==== Sys2Proof/Tests/Slice0.lean ====
section
/-! SUPPORT. The model's own tests: command words written out from 30_encoding.md R91, ill-formed operations that the check refuses,
single steps whose expected results are the vectors of 95_test_vectors.md, and one witness for the hypotheses of each statement of
Certificates/Slice0/Obligations.lean. -/

namespace Sys2Proof.Tests

open Sys2Proof.Machine

/-! ### Small states -/

/-- The state a command answers, if it answers one. -/
def answer : Host.Outcome State Fault Refusal → Option State
  | .next s => some s
  | _ => none

/-- Does a step stop with a fault? -/
def stopsWith (o : Host.Outcome State Fault Refusal) (f : Fault) : Bool :=
  match o with
  | .fault g => decide (g = f)
  | _ => false

/-- A buffer holding `f 0, f 1, …` at its first `n` indices. -/
def bytes (n : Nat) (f : Nat → Nat) : Memory := (List.range n).map fun i => (i, BitVec.ofNat 8 (f i))

/-- A loaded frame: the pre-state of a vector (95_test_vectors.md §0), at the reference `N = 16`. -/
def loaded (w h : Nat) (fy fuv : Nat → Nat) (cw ch : Nat) : State :=
  { State.reset with
    width := w, height := h, cropw := cw, croph := ch, ylen := w * h, uvlen := w * h / 2,
    yin := bytes (w * h) fy, uvin := bytes (w * h / 2) fuv }

/-- The bytes of the five output registers and of the first `n` indices of a buffer. -/
def outputs (s : State) : List Nat := [s.owidth, s.oheight, s.oylen, s.ouvlen, s.orgblen]

/-- The values at the first `n` indices of a buffer; 999 stands for an index nothing has written. -/
def values (m : Memory) (n : Nat) : List Nat :=
  (List.range n).map fun a => ((Memory.read m a).map BitVec.toNat).getD 999

/-- The frame of vector V-C2, with the given crop amounts: `Y[i] = i`, `UV[i] = 100 + i`. -/
def ramp (w h cw ch : Nat) : State := loaded w h (fun i => i) (fun i => 100 + i) cw ch

/-- A state whose next host operation is the given one. -/
def pending (op : HostOp) : State := { ramp 2 2 0 0 with script := [op] }

/-! ### Decoding: the words of 30_encoding.md R91, bit by bit -/

theorem test_word_compress : decodeTableWord 8 0b00000001 = some .compress := by decide
theorem test_word_crop : decodeTableWord 8 0b00000010 = some .crop := by decide
theorem test_word_torgb : decodeTableWord 8 0b00000011 = some .torgb := by decide
/-- Vectors V-X1 to V-X4: no partial decoding. -/
theorem test_illegal_words :
    ∀ w ∈ [0x00, 0x04, 0xFF, 0x81, 0x11, 0x05, 0x41, 0x09, 0x07], decodeTableWord 8 w = none := by decide

/-- The three rows of the opcode map hit no word in common. -/
theorem test_rows_do_not_overlap :
    opcodeTable.Pairwise (fun r r' => ∀ w : Byte, ¬(r.hits w = true ∧ r'.hits w = true)) := by decide +kernel

/-! ### Well-formedness: what no port can carry is refused, and the boundary values are not (`N = 16`) -/

theorem test_wf_refuses_wide_value : HostOp.wf .reference (.writeReg 3 (2 ^ 16)) = false := by decide
theorem test_wf_takes_greatest_value : HostOp.wf .reference (.writeReg 3 (2 ^ 16 - 1)) = true := by decide
theorem test_wf_refuses_index_write : HostOp.wf .reference (.writeMem .yin (2 ^ 32) 0#8) = false := by decide
theorem test_wf_takes_last_index_write : HostOp.wf .reference (.writeMem .yin (2 ^ 32 - 1) 0#8) = true := by decide
theorem test_wf_refuses_index_read : HostOp.wf .reference (.readMem .uvout (2 ^ 31)) = false := by decide
theorem test_wf_takes_last_index_read : HostOp.wf .reference (.readMem .rgbout (3 * 2 ^ 32 - 1)) = true := by decide
theorem test_wf_takes_any_value_for_no_register : HostOp.wf .reference (.writeReg 14 (2 ^ 99)) = true := by decide
theorem test_script_refused_for_one_bad_op :
    scriptWf .reference [.readReg 1, .writeReg 0 256] = false := by decide
theorem test_commands_are_wellformed : ∀ i ∈ [Instr.compress, .crop, .torgb], i.wf = true := by decide

/-! ### COMPRESS -/

/-- Vector V-C3 (12 x 6, wide). -/
theorem test_compress_V_C3 :
    (answer (exec .compress (ramp 12 6 0 0))).map
        (fun t => (t.status, outputs t, values t.yout 9, values t.uvout 5)) =
      some (.done, [4, 2, 8, 4, 0], [0, 1, 6, 7, 12, 13, 18, 19, 999], [100, 101, 106, 107, 999]) := by decide +kernel

/-- Vector V-C7 (8 x 6): rejected, not truncated. -/
theorem test_compress_V_C7 :
    (answer (exec .compress (ramp 8 6 0 0))).map (fun t => (t.status, t.err, outputs t, values t.yout 1)) =
      some (.error, .invalidDimensions, [0, 0, 0, 0, 0], [999]) := by decide +kernel

/-! ### CROP -/

/-- Vector V-K7 (8 x 8, `cw = 2`, `ch = 6`): odd margins on both axes. -/
theorem test_crop_V_K7 :
    (answer (exec .crop (ramp 8 8 2 6))).map (fun t => (t.status, outputs t, values t.yout 12, values t.uvout 6)) =
      some (.done, [6, 2, 12, 6, 0], [25, 26, 27, 28, 29, 30, 33, 34, 35, 36, 37, 38],
        [109, 110, 111, 112, 113, 114]) := by decide +kernel

/-- Vector V-E3: lengths before crop amounts. -/
theorem test_crop_V_E3 :
    (answer (exec .crop { ramp 4 4 5 0 with uvlen := 7 })).map (fun t => (t.status, t.err)) =
      some (.error, .invalidFrameBuffer) := by decide +kernel

/-! ### TORGB -/

/-- Vector V-T2 (4 x 2): two pairs share the one chroma row. -/
theorem test_torgb_V_T2 :
    (answer (exec .torgb (loaded 4 2 (fun i => 10 * (i + 1)) (fun i => [128, 128, 90, 240].getD i 0) 0 0))).map
        (fun t => (t.status, outputs t, values t.rgbout 24)) =
      some (.done, [0, 0, 0, 0, 24],
        [10, 10, 10, 20, 20, 20, 187, 0, 0, 197, 0, 0, 50, 50, 50, 60, 60, 60, 227, 3, 2, 237, 13, 12]) := by
  decide +kernel

/-- Rows of vector V-T1: both clamps, truncation, and the row where binary64 would differ. -/
theorem test_torgb_V_T1 :
    ∀ r ∈ [((0, 0, 0), (0, 135, 0)), ((255, 255, 255), (255, 120, 255)), ((100, 129, 129), (101, 98, 101)),
        ((0, 128, 127), (0, 0, 0)), ((222, 28, 228), (255, 185, 44)), ((200, 100, 50), (90, 255, 150))],
      ((channel (redNum (BitVec.ofNat 8 r.1.1) (BitVec.ofNat 8 r.1.2.2))).toNat,
        (channel (greenNum (BitVec.ofNat 8 r.1.1) (BitVec.ofNat 8 r.1.2.1) (BitVec.ofNat 8 r.1.2.2))).toNat,
        (channel (blueNum (BitVec.ofNat 8 r.1.1) (BitVec.ofNat 8 r.1.2.1))).toNat) = r.2 := by decide +kernel

/-- A frame none of whose bytes has been written still converts: only the values are free (93_implementation_defined.md U5). -/
theorem test_unwritten_frame_runs :
    (answer (exec .torgb { ramp 2 2 0 0 with yin := [], uvin := [] })).map
      (fun t => (t.status, t.orgblen, t.rgbout.map Prod.fst)) = some (.done, 12, List.range 12) := by decide +kernel

/-! ### The host interface and reset -/

/-- Vector V-X2: an illegal word, on a loaded frame. -/
theorem test_step_illegal_word :
    (answer (step (pending (.writeReg 0 4)))).map (fun t => (t.cmd, t.status, t.err)) =
      some (4#8, .error, .illegalCommand) := by decide +kernel

/-- Vector V-R2: the first command after reset, placed by `State.withFetchWord`. -/
theorem test_first_command_after_reset :
    ∀ w ∈ [1, 2, 3], (answer (step (State.reset.withFetchWord 8 w))).map (fun t => (t.cmd.toNat, t.status, t.err)) =
      some (w, .error, .invalidDimensions) := by decide +kernel

/-- Vector V-H2: a register that does not exist reads 0. -/
theorem test_read_absent_register :
    (answer (step (pending (.readReg 255)))).map (fun t => t.returned) = some [.reg 255 0] := by decide +kernel

/-- Vector V-H6: an input byte is read back by the host. -/
theorem test_read_input_byte :
    (answer (step (pending (.readMem .uvin 1)))).map (fun t => t.returned) = some [.byte .uvin 1 101#8] := by decide +kernel

/-- 30_encoding.md R96, R97: `LOADFRAME` of a 2 by 2 frame as host operations. -/
theorem test_loadFrame_ops :
    scriptOps (loadFrame ⟨[1#8, 2#8, 3#8, 4#8], [5#8, 6#8], 2, 2⟩) =
      [.writeMem .yin 0 1#8, .writeMem .yin 1 2#8, .writeMem .yin 2 3#8, .writeMem .yin 3 4#8, .writeMem .uvin 0 5#8,
        .writeMem .uvin 1 6#8, .writeReg 3 2, .writeReg 4 2, .writeReg 7 4, .writeReg 8 2] := by decide

/-! ### Witnesses: for each statement with hypotheses, a state and operands that meet them together -/

theorem witness_DecodeAgreesWithEncode : ∀ w ∈ [0x00#8, 0x04#8, 0xFF#8], ∀ i ∈ [Instr.compress, .crop, .torgb], w ≠ encode i := by
  decide

theorem witness_StepRunsTheDecodedCommand :
    (pending (.writeReg 0 2)).script = [.writeReg 0 2] ∧ 2 < 2 ^ 8 ∧ decode (BitVec.ofNat 8 2) = .ok .crop ∧
      decodeTableWord 8 3 = some .torgb := by decide

theorem witness_IllegalWordRaisesIllegalCommand :
    ∀ v ∈ [0, 4, 255], (pending (.writeReg 0 v)).script = [.writeReg 0 v] ∧ v < 2 ^ 8 ∧ v ≠ 0x01 ∧ v ≠ 0x02 ∧ v ≠ 0x03 := by
  decide

/-- The least frame COMPRESS accepts, and the last output pixel and pair in its ranges. -/
theorem witness_CompressCompletes :
    let s := ramp 6 6 0 0
    0 < s.width ∧ 0 < s.height ∧ s.width % 2 = 0 ∧ s.height % 2 = 0 ∧ s.width % 3 = 0 ∧ s.height % 3 = 0 ∧
      s.ylen = s.width * s.height ∧ s.uvlen = s.width * s.height / 2 ∧
      (answer (exec .compress s)).map (fun t => decide (1 < t.owidth ∧ 1 < t.oheight ∧ 2 * 0 < t.owidth ∧ 2 * 0 < t.oheight)) =
        some true := by decide +kernel

/-- The greatest legal crop (vector V-K6), with the last luma pixel and the last chroma byte in range. -/
theorem witness_CropCompletes :
    let s := ramp 8 8 6 6
    0 < s.width ∧ 0 < s.height ∧ s.width % 2 = 0 ∧ s.height % 2 = 0 ∧ s.ylen = s.width * s.height ∧
      s.uvlen = s.width * s.height / 2 ∧ s.cropw < s.width ∧ s.croph < s.height ∧ s.cropw % 2 = 0 ∧ s.croph % 2 = 0 ∧
      (answer (exec .crop s)).map (fun t => decide (1 < t.owidth ∧ 1 < t.oheight ∧ 2 * 0 < t.oheight)) = some true := by
  decide +kernel

/-- The least frame TORGB accepts, with the last pixel's three samples written. -/
theorem witness_TorgbCompletes :
    let s := ramp 2 2 0 0
    0 < s.width ∧ 0 < s.height ∧ s.width % 2 = 0 ∧ s.height % 2 = 0 ∧ s.ylen = s.width * s.height ∧
      s.uvlen = s.width * s.height / 2 ∧ Memory.read s.yin (1 * s.width + 1) = some 3#8 ∧
      Memory.read s.uvin (1 / 2 * s.width + 2 * (1 / 2)) = some 100#8 ∧
      Memory.read s.uvin (1 / 2 * s.width + 2 * (1 / 2) + 1) = some 101#8 := by decide

/-- One state for each of the six outcomes of the order of checks. -/
theorem witness_FirstApplicableErrorIsReported :
    ∀ p ∈ [(ramp 8 6 0 0, 7, ErrCode.illegalCommand), (ramp 5 4 9 1, 2, .invalidDimensions),
        (ramp 8 6 0 0, 1, .invalidDimensions), ({ ramp 4 4 5 0 with uvlen := 7 }, 2, .invalidFrameBuffer),
        (ramp 4 4 4 0, 2, .invalidCropParameters), (ramp 4 4 4 0, 3, .noError)],
      (answer (step { p.1 with script := [.writeReg 0 p.2.1] })).map State.err = some p.2.2 := by decide +kernel

theorem witness_ErrorSequenceChangesNothingElse :
    ∀ v ∈ [0, 1, 2, 3], (answer (step { State.reset with script := [.writeReg 0 v] })).map State.status = some .error := by
  decide +kernel

/-- A state that an error has left and on which every command's checks pass; and sides for the last clause. -/
theorem witness_ErrorIsNotSticky :
    let s := { ramp 6 6 2 4 with status := .error, err := .illegalCommand }
    s.status = .error ∧ 0 < s.width ∧ 0 < s.height ∧ s.width % 2 = 0 ∧ s.height % 2 = 0 ∧ s.ylen = s.width * s.height ∧
      s.uvlen = s.width * s.height / 2 ∧ s.width % 3 = 0 ∧ s.height % 3 = 0 ∧ s.cropw < s.width ∧ s.croph < s.height ∧
      s.cropw % 2 = 0 ∧ s.croph % 2 = 0 ∧ 0 < 2 ∧ 2 % 2 = 0 := by decide

theorem witness_FrameCommandsWriteOnlyTheNewExtents :
    (answer (exec .compress (ramp 6 6 0 0))).map (fun t => decide (t.oylen ≤ 4 ∧ t.ouvlen ≤ 2)) = some true ∧
      (answer (exec .crop (ramp 6 6 2 2))).map (fun t => decide (t.oylen ≤ 16 ∧ t.ouvlen ≤ 8)) = some true := by decide +kernel

theorem witness_TorgbWritesOnlyTheNewExtent :
    (answer (exec .torgb (ramp 2 2 0 0))).map (fun t => decide (t.orgblen ≤ 12)) = some true := by decide +kernel

/-- For the statements over accepted frames: a frame that passes every check, with a reordering of stores and addresses in range. -/
theorem witness_accepted_frame :
    let s := ramp 6 6 2 4
    s.dimsOK = true ∧ s.dims3OK = true ∧ s.frameOK = true ∧ s.cropOK = true ∧ Memory.wf s.yout ∧
      (compressLumaStores s).reverse.isPerm (compressLumaStores s) = true ∧
      (compressChromaStores s).reverse.isPerm (compressChromaStores s) = true ∧
      (cropLumaStores s).reverse.isPerm (cropLumaStores s) = true ∧
      (cropChromaStores s).reverse.isPerm (cropChromaStores s) = true ∧
      1 < s.width / 3 ∧ 0 < s.width / 3 / 2 ∧ 3 < s.width - s.cropw ∧
      s.croph / 4 + 0 < (s.height - s.croph / 2) / 2 ∧ 5 < s.width := by decide +kernel

theorem witness_StoreOrderIsNotObservable_torgb :
    (ramp 2 2 0 0).dimsOK = true ∧ (torgbStores (ramp 2 2 0 0)).reverse.isPerm (torgbStores (ramp 2 2 0 0)) = true := by
  decide +kernel

/-- Two different states, of different history, crop operands and bytes beyond the lengths, that agree on the operands and on every
byte of the input frame. -/
theorem witness_OutcomeDependsOnlyOnOperandsAndInputFrame :
    let s := ramp 6 6 0 0
    let s' := { ramp 6 6 9 9 with status := .error, err := .illegalCommand, yout := [(0, 9#8)], yin := s.yin ++ [(36, 1#8)] }
    s.width = s'.width ∧ s.height = s'.height ∧ s.ylen = s'.ylen ∧ s.uvlen = s'.uvlen ∧ s ≠ s' ∧
      (∀ a < s.ylen, Memory.read s.yin a = Memory.read s'.yin a ∧ (Memory.read s.yin a).isSome = true) ∧
      (∀ a < s.uvlen, Memory.read s.uvin a = Memory.read s'.uvin a ∧ (Memory.read s.uvin a).isSome = true) := by
  decide +kernel

/-- The second state of vector V-C12: it differs from `ramp 6 6 0 0` in bytes COMPRESS skips. -/
def skippedBytesAltered : State :=
  { ramp 6 6 0 0 with
    yin := Memory.write (Memory.write (Memory.write (ramp 6 6 0 0).yin 2 255#8) 12 255#8) 35 255#8
    uvin := Memory.write (Memory.write (Memory.write (ramp 6 6 0 0).uvin 2 0#8) 6 0#8) 17 0#8 }

/-- They agree on every byte that COMPRESS reads, and these have been written. -/
theorem witness_CompressIgnoresSkippedSamples :
    ramp 6 6 0 0 ≠ skippedBytesAltered ∧
      (∀ x < 6, ∀ y < 6, x % 6 < 2 ∧ y % 6 < 2 →
        Memory.read (ramp 6 6 0 0).yin (y * 6 + x) = Memory.read skippedBytesAltered.yin (y * 6 + x) ∧
        Memory.read (ramp 6 6 0 0).yin (y * 6 + x) ≠ none) ∧
      (∀ j < 6, ∀ cy < 3, j % 6 < 2 ∧ cy % 3 = 0 →
        Memory.read (ramp 6 6 0 0).uvin (cy * 6 + j) = Memory.read skippedBytesAltered.uvin (cy * 6 + j) ∧
        Memory.read (ramp 6 6 0 0).uvin (cy * 6 + j) ≠ none) := by
  refine ⟨by decide +kernel, by decide +kernel, by decide +kernel⟩

theorem witness_KeptIndicesAreTwoOfEverySix : 0 % 6 = 0 ∧ 12 % 6 = 0 := by decide

/-- Vector V-C1: constant planes with distinct U and V. -/
theorem witness_CompressKeepsConstantPlanes :
    let s := loaded 6 6 (fun _ => 77) (fun i => if i % 2 = 0 then 10 else 20) 0 0
    s.dimsOK = true ∧ s.dims3OK = true ∧ s.frameOK = true ∧ (∀ a < s.ylen, Memory.read s.yin a = some 77#8) ∧
      (∀ a < s.uvlen, Memory.read s.uvin a = some (if a % 2 = 0 then 10#8 else 20#8)) := by decide +kernel

/-- Crop heights of both phases, 6 = 4 + 2 and 4 = 4 * 1, and the least, 0 = 4 * 0. -/
theorem witness_CropChromaWindowHasHalfTheRows :
    ∀ s ∈ [ramp 8 8 0 6, ramp 8 8 0 4, ramp 8 8 0 0], s.height % 2 = 0 ∧ s.croph < s.height ∧ s.croph % 2 = 0 ∧
      (s.croph = 4 * 1 + 2 ∨ s.croph = 4 * 1 ∨ s.croph = 4 * 0) := by decide +kernel

/-- Crop widths of both phases, and a crop by nothing. -/
theorem witness_accepted_crops :
    ∀ s ∈ [ramp 8 8 4 4, ramp 8 8 6 6, ramp 4 4 0 0], s.dimsOK = true ∧ s.frameOK = true ∧ s.cropOK = true ∧
      (s.cropw % 4 = 0 ∨ s.cropw % 4 = 2) ∧
      (answer (exec .crop s)).map (fun t => decide (2 * 0 < t.owidth ∧ 2 * 0 < t.oheight)) = some true := by decide +kernel

theorem witness_OutputFramesCanBeChained :
    (answer (exec .compress (ramp 6 6 0 0))).map
        (fun t => decide (t.status = .done ∧ (ramp 2 2 0 0).width = t.owidth ∧ (ramp 2 2 0 0).height = t.oheight ∧
          (ramp 2 2 0 0).ylen = t.oylen ∧ (ramp 2 2 0 0).uvlen = t.ouvlen)) = some true := by decide +kernel

/-- The boundary values of the three clauses, where they meet. -/
theorem witness_ChannelIsClampedThenTruncated :
    ((-1 : Int) < 0 ∧ channel (-1) = 0#8) ∧ channel 0 = 0#8 ∧ channel 254999999 = 254#8 ∧
      (255000000 ≤ (255000000 : Int) ∧ channel 255000000 = 255#8) := by decide +kernel

theorem witness_buffers_in_canonical_form :
    Memory.wf (Memory.write [] 5 1#8) ∧ Memory.wf (Memory.write (Memory.write [] 5 0#8) 5 1#8) := by decide

/-- One operation for each clause of the access rights, at boundary numbers and values. -/
theorem witness_RegisterAccessRights :
    let n := (pending .reset).cfg.n
    n = 16 ∧ (pending (.writeReg 13 (2 ^ 34 - 1))).script = [.writeReg 13 (2 ^ 34 - 1)] ∧ 2 ^ 34 - 1 < 2 ^ (2 * n + 2) ∧
      (pending (.writeReg 14 5)).script = [.writeReg 14 5] ∧ 14 ≤ 14 ∧
      (pending (.writeReg 3 (2 ^ 16 - 1))).script = [.writeReg 3 (2 ^ 16 - 1)] ∧ 2 ^ 16 - 1 < 2 ^ n ∧
      (pending (.writeReg 8 (2 ^ 32 - 1))).script = [.writeReg 8 (2 ^ 32 - 1)] ∧ 2 ^ 32 - 1 < 2 ^ (2 * n) ∧
      (pending (.readReg 13)).script = [.readReg 13] ∧ (pending (.readReg 14)).script = [.readReg 14] := by decide

theorem witness_HostBufferWrites :
    (pending (.writeMem .uvin (2 ^ 31 - 1) 7#8)).script = [.writeMem .uvin (2 ^ 31 - 1) 7#8] ∧
      2 ^ 31 - 1 < Buffer.uvin.capacity (pending .reset).cfg ∧ 0 < Buffer.rgbout.capacity (pending .reset).cfg := by decide

theorem witness_HostBufferReads :
    let s := { pending (.readMem .yout 3) with oylen := 4, yout := [(3, 7#8)] }
    s.script = [.readMem .yout 3] ∧ 3 < Buffer.yout.capacity s.cfg ∧ 3 < s.oylen ∧
      Memory.read (s.buffer .yout) 3 = some 7#8 := by decide

theorem witness_ResetEventClearsTheBlock : (pending .reset).script = [.reset] := by decide

/-- The least value, and the least indices, that no port can carry. -/
theorem witness_OnlyInexpressibleOperationsStop :
    stopsWith (step (pending (.writeReg 0 256))) (.valueWiderThanPort 0 256) = true ∧
      stopsWith (step (pending (.writeMem .yout (2 ^ 32) 0#8))) (.indexBeyondCapacity .yout (2 ^ 32)) = true ∧
      stopsWith (step (pending (.readMem .rgbout (3 * 2 ^ 32)))) (.indexBeyondCapacity .rgbout (3 * 2 ^ 32)) = true ∧
      (HostOp.readReg 99).wf (pending .reset).cfg = true := by decide +kernel

theorem witness_ResetStateIsLegal : Config.wf ⟨4⟩ := by decide

/-- A legal state, of the least parameter value, that makes a step. -/
theorem witness_EveryStepKeepsTheStateLegal :
    let s := { State.resetOf ⟨4⟩ with script := [.writeReg 3 15] }
    s.Inv ∧ step s = .next { State.resetOf ⟨4⟩ with width := 15 } := by
  refine ⟨⟨by decide, ?_, ?_, by simp [State.ErrMatchesStatus, State.resetOf], ⟨rfl, rfl, rfl, rfl, rfl, rfl⟩, ?_⟩, rfl⟩
  · intro r; cases r <;> decide
  · intro b; cases b <;> simp [State.buffer, State.resetOf]
  · simp [State.ExtentsWritten, State.resetOf]

theorem witness_HostScriptsRunToTheirEnd : State.ScriptOK (pending (.writeReg 3 65535)) := by
  unfold State.ScriptOK; decide

theorem witness_IdleBlockKeepsItsState : State.reset.script = [] := rfl

/-- STATUS stays IDLE over an operand write, and an operation that is neither a write of CMD nor a reset makes a step. -/
theorem witness_whole_machine_rules :
    (answer (step (pending (.writeReg 3 4)))).map State.status = some .idle ∧
      (∀ v rest, (pending (.writeReg 3 4)).script ≠ .writeReg 0 v :: rest) ∧
      (∀ rest, (pending (.writeReg 3 4)).script ≠ .reset :: rest) := by
  refine ⟨by decide +kernel, fun v rest => ?_, fun rest => ?_⟩ <;> simp [pending]

/-! ### Pseudo-instructions -/

/-- The frame value of vectors V-K1 and V-K2. -/
def frame44 : Frame := ⟨(List.range 16).map (BitVec.ofNat 8), (List.range 8).map fun i => BitVec.ofNat 8 (100 + i), 4, 4⟩

/-- Vector V-S3 as the call `toRGB(f)`. -/
theorem test_call_toRGB_V_S3 :
    (answer ((Pseudo.toRGB ⟨[16#8, 16#8, 16#8, 16#8], [128#8, 128#8], 2, 2⟩).run .reset)).map State.returned =
      some ([.reg 1 1, .reg 13 12] ++ (List.range 12).map fun a => .byte .rgbout a 16#8) := by decide +kernel

/-- Vector V-K2 as the call `crop(f, 2, 0)`, then `CHAIN`: the window is the new input frame. -/
theorem test_call_crop_V_K2_then_chain :
    (answer (andThen ((Pseudo.crop frame44 2 0).run .reset) Pseudo.chain.run)).map (fun t =>
      ([t.width, t.height, t.ylen, t.uvlen], values t.yin 8, values t.uvin 4, t.returned.take 5)) =
      some ([2, 4, 8, 4], [1, 2, 5, 6, 9, 10, 13, 14], [101, 102, 105, 106],
        [.reg 1 1, .reg 9 2, .reg 10 4, .reg 11 8, .reg 12 4]) := by decide +kernel

/-- A 4 by 4 frame is no multiple of 3: the call of COMPRESS reads ERROR and code 1. -/
theorem test_call_compress_rejected :
    (answer ((Pseudo.compress frame44).run .reset)).map State.returned = some [.reg 1 2, .reg 2 1] := by decide +kernel

/-- The least conforming frame for COMPRESS, at the least parameter value. -/
theorem witness_CallOfCompress :
    let f : Frame := ⟨List.replicate 36 1#8, List.replicate 18 2#8, 6, 6⟩
    (0 < f.w ∧ 0 < f.h ∧ f.w % 2 = 0 ∧ f.h % 2 = 0) ∧ (f.y.length = f.w * f.h ∧ f.uv.length = f.w * f.h / 2) ∧
      f.w < 2 ^ 4 ∧ f.h < 2 ^ 4 ∧ f.w = 3 * 2 ∧ f.h = 3 * 2 := by decide

/-- A conforming frame, cropped on one side by all but the least window, for the statements about `crop(f, …)` and `toRGB(f)`. -/
theorem witness_CallOfCrop :
    (0 < frame44.w ∧ 0 < frame44.h ∧ frame44.w % 2 = 0 ∧ frame44.h % 2 = 0) ∧
      (frame44.y.length = frame44.w * frame44.h ∧ frame44.uv.length = frame44.w * frame44.h / 2) ∧ frame44.w < 2 ^ 16 ∧
      frame44.h < 2 ^ 16 ∧ 0 < 2 ∧ 0 < 4 ∧ frame44.w = 2 + 2 ∧ frame44.h = 4 + 0 ∧ 2 % 2 = 0 ∧ 0 % 2 = 0 := by decide

theorem witness_CallOfTorgb : frame44.Conforming State.reset.cfg := by
  unfold Frame.Conforming Frame.EvenSides Frame.PlaneLengths; decide

/-- One frame value for each rejection: an odd side, sides no multiple of 3, a short chroma plane, a crop by the whole width. -/
theorem witness_CallsReportTheFirstError :
    (∀ f ∈ [⟨[], [], 5, 4⟩, frame44, ⟨frame44.y, [], 4, 4⟩], Frame.Fits State.reset.cfg f) ∧ 4 < 2 ^ State.reset.cfg.n ∧
      ¬Frame.EvenSides ⟨[], [], 5, 4⟩ ∧ frame44.EvenSides ∧ ¬(frame44.w % 3 = 0 ∧ frame44.h % 3 = 0) ∧
      ¬Frame.PlaneLengths ⟨frame44.y, [], 4, 4⟩ ∧ frame44.PlaneLengths ∧
      ¬(4 < frame44.w ∧ 0 < frame44.h ∧ 4 % 2 = 0 ∧ 0 % 2 = 0) := by
  unfold Frame.Fits Frame.EvenSides Frame.PlaneLengths; decide

/-- A legal state that holds an output frame. -/
theorem witness_ChainLoadsTheOutputFrame :
    State.Inv { State.resetOf ⟨4⟩ with
      cmd := 0x01#8, status := .done, owidth := 2, oheight := 2, oylen := 4, ouvlen := 2
      yout := [(0, 1#8), (1, 2#8), (2, 3#8), (3, 4#8)], uvout := [(0, 5#8), (1, 6#8)] } := by
  refine ⟨by decide, ?_, ?_, by simp [State.ErrMatchesStatus, State.resetOf], ?_, ?_, ?_, ?_⟩
  · intro r; cases r <;> decide
  · intro b; cases b <;> simp [State.buffer, State.resetOf, Buffer.capacity]
  · exact .inl ⟨.inl rfl, by decide, by decide, by decide, by decide, rfl, rfl, rfl⟩
  · intro a ha; interval_cases a <;> exact ⟨_, rfl⟩
  · intro a ha; interval_cases a <;> exact ⟨_, rfl⟩
  · intro a ha; exact absurd ha (Nat.not_lt_zero a)

end Sys2Proof.Tests
end

section
/-! What every register and every buffer of the state right after reset holds, and that this state is legal. -/

namespace Sys2Proof.Machine

/-- 10_state.md R39: every register is 0 after reset. -/
@[simp] theorem State.resetOf_readReg (c : Config) (r : Reg) : (State.resetOf c).readReg r = 0 := by
  cases r <;> rfl

/-- 10_state.md R40: no byte of any buffer has a value after reset. -/
@[simp] theorem State.resetOf_buffer (c : Config) (b : Buffer) : (State.resetOf c).buffer b = [] := by
  cases b <;> rfl

theorem State.resetOf_regsFit (c : Config) : (State.resetOf c).RegsFit := fun r => by
  rw [State.resetOf_readReg]
  exact Nat.two_pow_pos _

theorem State.resetOf_buffersFit (c : Config) : (State.resetOf c).BuffersFit := fun b => by
  rw [State.resetOf_buffer]
  exact ⟨List.Pairwise.nil, List.forall_mem_nil _⟩

theorem State.resetOf_noOutput (c : Config) : (State.resetOf c).NoOutput := ⟨rfl, rfl, rfl, rfl, rfl⟩

/-- A state with no output has no byte in a valid extent. -/
theorem State.NoOutput.extentsWritten {s : State} (h : s.NoOutput) : s.ExtentsWritten := by
  obtain ⟨-, -, hy, huv, hrgb⟩ := h
  refine ⟨fun a ha => ?_, fun a ha => ?_, fun a ha => ?_⟩
  · exact absurd (hy ▸ ha) a.not_lt_zero
  · exact absurd (huv ▸ ha) a.not_lt_zero
  · exact absurd (hrgb ▸ ha) a.not_lt_zero

/-- The invariant holds initially, for every allowed parameter value (00_scope.md R5). -/
theorem State.resetOf_inv {c : Config} (hc : c.wf) : (State.resetOf c).Inv where
  cfgOK := hc
  regsFit := State.resetOf_regsFit c
  buffersFit := State.resetOf_buffersFit c
  errMatchesStatus := iff_of_true rfl Status.noConfusion
  outputShape := ⟨rfl, State.resetOf_noOutput c⟩
  extentsWritten := (State.resetOf_noOutput c).extentsWritten

/-- Settles O37: `State.resetOf_inv` for every parameter value, the reference value 16 among them. -/
theorem resetStateIsLegal : Obligations.ResetStateIsLegal := by
  have href : Config.reference.wf := by decide
  exact ⟨rfl, State.resetOf_inv href, fun _ hc => State.resetOf_inv hc⟩

/-- Settles O29: the buffer laws `Memory.read_write` and `Memory.wf_write`. -/
theorem bufferReadAfterWrite : Obligations.BufferReadAfterWrite := fun m a b v =>
  ⟨Memory.read_write m a b v, fun hm => Memory.wf_write hm a v⟩

end Sys2Proof.Machine
end

section
/-! Which indices the stores of each command run through (20_memory.md R78), and what a buffer holds whose valid extent has been
stored. -/

namespace Sys2Proof.Machine

theorem compressLuma_indices (s : State) :
    (compressLumaStores s).map Prod.fst = List.range (s.compressWidth * s.compressHeight) := by
  rw [Nat.mul_comm]
  exact byteNest_indices _ _ fun oy ox =>
    s.load .yin (yaddr (keptIndex ox) (keptIndex oy) s.width) (yaddr ox oy s.compressWidth)

theorem compressChroma_indices {s : State} (hd : s.dimsOK = true) (h3 : s.dims3OK = true) :
    (compressChromaStores s).map Prod.fst = List.range (s.compressWidth * s.compressHeight / 2) := by
  obtain ⟨-, -, -, -, hw, hh⟩ := State.compress_sides hd h3
  rw [← half_rows hh]
  exact pairNest_indices _ _ hw
    (fun cy cx => s.load .uvin (uvByte (6 * cx) (3 * cy) s.width)
      (s.compressWidth * s.compressHeight + uaddr cx cy s.compressWidth))
    (fun cy cx => s.load .uvin (uvByte (6 * cx + 1) (3 * cy) s.width)
      (s.compressWidth * s.compressHeight + vaddr cx cy s.compressWidth))

theorem cropLuma_indices (s : State) :
    (cropLumaStores s).map Prod.fst = List.range (s.cropWidth * s.cropHeight) := by
  rw [Nat.mul_comm]
  exact byteNest_indices _ _ fun oy ox =>
    s.load .yin (yaddr (s.cropw / 2 + ox) (s.croph / 2 + oy) s.width) (yaddr ox oy s.cropWidth)

/-- The chroma window of a legal crop has half as many rows as its luma window (42_crop.md R165). -/
theorem State.crop_chromaRows {s : State} (hd : s.dimsOK = true) (hc : s.cropOK = true) :
    s.cropChromaBottom - s.cropChromaTop = s.cropHeight / 2 := by
  obtain ⟨-, -, -, hh⟩ := s.dimsOK_iff.1 hd
  obtain ⟨-, hch, -, hch2⟩ := s.cropOK_iff.1 hc
  simp only [State.cropChromaBottom, State.cropChromaTop, State.cropHeight]
  omega

theorem cropChroma_indices {s : State} (hd : s.dimsOK = true) (hc : s.cropOK = true) :
    (cropChromaStores s).map Prod.fst = List.range (s.cropWidth * s.cropHeight / 2) := by
  obtain ⟨-, -, -, -, -, hh⟩ := State.crop_sides hd hc
  rw [← half_rows hh, ← State.crop_chromaRows hd hc]
  exact byteNest_indices _ _ fun cy b =>
    s.load .uvin (uvByte (s.cropw / 2 + b) (s.cropChromaTop + cy) s.width)
      (s.cropWidth * s.cropHeight + uvByte b cy s.cropWidth)

theorem torgb_indices (s : State) : (torgbStores s).map Prod.fst = List.range (3 * s.width * s.height) := by
  have hrow : ∀ y, 3 * (y * s.width) = y * (3 * s.width) := fun y => by ring
  simp only [torgbStores, loopNest, pixelStores, rgbAddr, Nat.add_zero, List.map_flatMap, List.map_cons, List.map_nil,
    range_triples, hrow]
  rw [range_rowMajor, Nat.mul_comm]

/-- `m'` is `m` after stores that run through the indices below `n`, once each. -/
def Memory.StoresExtent (m m' : Memory) (n : Nat) : Prop :=
  ∃ l : List Host.Cell, m' = Memory.writeAll m l ∧ l.map Prod.fst = List.range n

theorem Memory.StoresExtent.none (m : Memory) : Memory.StoresExtent m m 0 := ⟨[], rfl, rfl⟩

theorem Memory.StoresExtent.written {m m' : Memory} {n a : Nat} (h : Memory.StoresExtent m m' n) (ha : a < n) :
    ∃ v, Memory.read m' a = some v := by
  obtain ⟨l, rfl, hl⟩ := h
  exact Memory.written_of_indices hl ha

theorem Memory.StoresExtent.fits {m m' : Memory} {n k : Nat} (h : Memory.StoresExtent m m' n)
    (hm : Memory.wf m ∧ ∀ c ∈ m, c.1 < k) (hn : n ≤ k) : Memory.wf m' ∧ ∀ c ∈ m', c.1 < k := by
  obtain ⟨l, rfl, hl⟩ := h
  exact Memory.fits_writeAll hm hl hn

/-- What one list of stores leaves inside its extent does not depend on what was there before. -/
theorem Memory.read_writeAll_extent {m m' : Memory} {l : List Host.Cell} {n a : Nat} (hl : l.map Prod.fst = List.range n)
    (ha : a < n) : Memory.read (Memory.writeAll m l) a = Memory.read (Memory.writeAll m' l) a := by
  have hmem : a ∈ l.map Prod.fst := by rw [hl]; exact List.mem_range.2 ha
  obtain ⟨⟨a, v⟩, hc, rfl⟩ := List.mem_map.1 hmem
  have hn : (l.map Prod.fst).Nodup := by rw [hl]; exact List.nodup_range
  have huniq : ∀ d ∈ l, d.1 = a → d.2 = v := fun d hd he => by rw [List.inj_on_of_nodup_map hn hd hc he]
  rw [Memory.read_writeAll_of_stored hc huniq, Memory.read_writeAll_of_stored hc huniq]

end Sys2Proof.Machine
end

section
/-! What a write of CMD can do, said once: the possible results, and what all of them leave. -/

namespace Sys2Proof.Machine

/-- The fields no command writes (10_state.md R36), and the model's own that it leaves alone, are those of `s` in `t`. -/
structure State.SameInputs (s t : State) : Prop where
  cmd : t.cmd = s.cmd
  width : t.width = s.width
  height : t.height = s.height
  cropw : t.cropw = s.cropw
  croph : t.croph = s.croph
  ylen : t.ylen = s.ylen
  uvlen : t.uvlen = s.uvlen
  yin : t.yin = s.yin
  uvin : t.uvin = s.uvin
  cfg : t.cfg = s.cfg
  script : t.script = s.script
  returned : t.returned = s.returned

/-- What every command leaves, whether it ends DONE or ERROR: its inputs as they were, the new valid extents stored, and output
registers bounded by the operands (on ERROR all of them are 0). -/
structure State.CommandEffect (s t : State) : Prop where
  inputs : s.SameInputs t
  yout : Memory.StoresExtent s.yout t.yout t.oylen
  uvout : Memory.StoresExtent s.uvout t.uvout t.ouvlen
  rgbout : Memory.StoresExtent s.rgbout t.rgbout t.orgblen
  owidth_le : t.owidth ≤ s.width
  oheight_le : t.oheight ≤ s.height
  oylen_eq : t.oylen = t.owidth * t.oheight
  ouvlen_eq : t.ouvlen = t.owidth * t.oheight / 2
  orgblen_le : t.orgblen ≤ 3 * s.width * s.height

/-- The results of the command word `w` in `s`, each done command with the checks it has passed (60_exceptions.md R216). -/
inductive State.CommandEnds (w : Byte) (s : State) : State → Prop
  | rejected (e : ErrCode) (he : e ≠ .noError) : CommandEnds w s (s.raise e)
  | compressed (hw : w = 0x01#8) (hd : s.dimsOK = true) (h3 : s.dims3OK = true) : CommandEnds w s s.compressed
  | cropped (hw : w = 0x02#8) (hd : s.dimsOK = true) (hc : s.cropOK = true) : CommandEnds w s s.cropped
  | converted (hw : w = 0x03#8) (hd : s.dimsOK = true) : CommandEnds w s s.converted

theorem exec_ends (i : Instr) (s : State) : ∃ t, exec i s = .next t ∧ s.CommandEnds (encode i) t := by
  rcases exec_cases i s with ⟨e, he, h⟩ | ⟨rfl, hd, h3, -, h⟩ | ⟨rfl, hd, -, hc, h⟩ | ⟨rfl, hd, -, h⟩
  · exact ⟨_, h, .rejected e he⟩
  · exact ⟨_, h, .compressed rfl hd h3⟩
  · exact ⟨_, h, .cropped rfl hd hc⟩
  · exact ⟨_, h, .converted rfl hd⟩

/-- Decode and dispatch always answer a next state (30_encoding.md R93, R94). -/
theorem runCommand_ends (w : Byte) (s : State) : ∃ t, runCommand w s = .next t ∧ s.CommandEnds w t := by
  by_cases h : ∃ i, w = encode i
  · obtain ⟨i, rfl⟩ := h
    rw [runCommand_legal]
    exact exec_ends i s
  · exact ⟨_, runCommand_illegal (fun i hi => h ⟨i, hi⟩) s, .rejected _ (by decide)⟩

theorem State.raise_effect (s : State) (e : ErrCode) : s.CommandEffect (s.raise e) where
  inputs := by constructor <;> simp
  yout := .none _
  uvout := .none _
  rgbout := .none _
  owidth_le := Nat.zero_le _
  oheight_le := Nat.zero_le _
  oylen_eq := rfl
  ouvlen_eq := by simp
  orgblen_le := Nat.zero_le _

theorem State.compressed_effect {s : State} (hd : s.dimsOK = true) (h3 : s.dims3OK = true) :
    s.CommandEffect s.compressed where
  inputs := by constructor <;> simp
  yout := ⟨_, rfl, compressLuma_indices s⟩
  uvout := ⟨_, rfl, compressChroma_indices hd h3⟩
  rgbout := .none _
  owidth_le := Nat.div_le_self ..
  oheight_le := Nat.div_le_self ..
  oylen_eq := rfl
  ouvlen_eq := rfl
  orgblen_le := s.compressed_orgblen.trans_le (Nat.zero_le _)

theorem State.cropped_effect {s : State} (hd : s.dimsOK = true) (hc : s.cropOK = true) : s.CommandEffect s.cropped where
  inputs := by constructor <;> simp
  yout := ⟨_, rfl, cropLuma_indices s⟩
  uvout := ⟨_, rfl, cropChroma_indices hd hc⟩
  rgbout := .none _
  owidth_le := Nat.sub_le ..
  oheight_le := Nat.sub_le ..
  oylen_eq := rfl
  ouvlen_eq := rfl
  orgblen_le := s.cropped_orgblen.trans_le (Nat.zero_le _)

theorem State.converted_effect (s : State) : s.CommandEffect s.converted where
  inputs := by constructor <;> simp
  yout := .none _
  uvout := .none _
  rgbout := ⟨_, rfl, torgb_indices s⟩
  owidth_le := Nat.zero_le _
  oheight_le := Nat.zero_le _
  oylen_eq := rfl
  ouvlen_eq := by simp
  orgblen_le := le_rfl

theorem State.CommandEnds.effect {w : Byte} {s t : State} (h : s.CommandEnds w t) : s.CommandEffect t := by
  cases h with
  | rejected e he => exact s.raise_effect e
  | compressed hw hd h3 => exact State.compressed_effect hd h3
  | cropped hw hd hc => exact State.cropped_effect hd hc
  | converted hw hd => exact s.converted_effect

/-- A command leaves STATUS DONE or ERROR (10_state.md R27). -/
theorem State.CommandEnds.status_ne_idle {w : Byte} {s t : State} (h : s.CommandEnds w t) : t.status ≠ .idle := by
  cases h <;> exact Status.noConfusion

/-- Settles O11: the inputs are part of what every command leaves (`State.CommandEnds.effect`). -/
theorem engineNeverWritesItsInputs : Obligations.EngineNeverWritesItsInputs := by
  intro i s
  obtain ⟨t, ht, hends⟩ := exec_ends i s
  have h := hends.effect.inputs
  exact ⟨t, ht, h.cmd, h.width, h.height, h.cropw, h.croph, h.ylen, h.uvlen, h.yin, h.uvin, h.cfg, h.script, h.returned⟩

end Sys2Proof.Machine
end

section
/-! What a step can do, said once, and what each host operation other than a write of CMD leaves unchanged. -/

namespace Sys2Proof.Machine

/-- The operation at the head of the script is done on this state: the block as it is, the others still pending. -/
abbrev State.popped (s : State) (rest : List HostOp) : State := { s with script := rest }

/-- The next states a step can answer: one case for an idle block, and one for each host operation that a port can carry. -/
inductive State.StepsTo (s : State) : State → Prop
  | idle (hs : s.script = []) : StepsTo s s
  | command {v rest t} (hs : s.script = .writeReg 0 v :: rest) (hv : v < 2 ^ 8)
      (ht : ((s.popped rest).hostSetReg .cmd v).CommandEnds (BitVec.ofNat 8 v) t) : StepsTo s t
  | writeReg {r v rest} (hs : s.script = .writeReg r.num v :: rest) (hr : r ≠ .cmd) (hv : v < 2 ^ r.bits s.cfg) :
      StepsTo s ((s.popped rest).hostSetReg r v)
  | writeAbsent {no v rest} (hs : s.script = .writeReg no v :: rest) (hno : Reg.ofNum no = none) : StepsTo s (s.popped rest)
  | readReg {no rest} (hs : s.script = .readReg no :: rest) : StepsTo s (hostReadReg no (s.popped rest))
  | writeMem {b a v rest} (hs : s.script = .writeMem b a v :: rest) (ha : a < b.capacity s.cfg) :
      StepsTo s (hostWriteMem b a v (s.popped rest))
  | readMem {b a rest} (hs : s.script = .readMem b a :: rest) (ha : a < b.capacity s.cfg) :
      StepsTo s (hostReadMem b a (s.popped rest))
  | reset {rest} (hs : s.script = .reset :: rest) : StepsTo s (s.popped rest).resetEvent

/-- A register write other than one of CMD, where the port can carry the value. -/
theorem step_writeReg {s : State} {r : Reg} {v : Nat} {rest : List HostOp} (hs : s.script = .writeReg r.num v :: rest)
    (hr : r ≠ .cmd) (hv : v < 2 ^ r.bits s.cfg) : step s = .next ((s.popped rest).hostSetReg r v) :=
  (step_wf hs (writeReg_wf_iff.2 hv)).trans (hostWriteReg_other hr v _)

theorem absent_wf {c : Config} {no v : Nat} (hno : Reg.ofNum no = none) : HostOp.wf c (.writeReg no v) = true := by
  simp [HostOp.wf, HostOp.portFault, hno]

/-- A write to a register number that does not exist is ignored (10_state.md R33). -/
theorem step_writeAbsent {s : State} {no v : Nat} {rest : List HostOp} (hs : s.script = .writeReg no v :: rest)
    (hno : Reg.ofNum no = none) : step s = .next (s.popped rest) :=
  (step_wf hs (absent_wf hno)).trans (hostWriteReg_absent hno v _)

theorem step_readReg {s : State} {no : Nat} {rest : List HostOp} (hs : s.script = .readReg no :: rest) :
    step s = .next (hostReadReg no (s.popped rest)) := step_wf hs rfl

/-- A step on an operation that a port can carry answers one of the next states of `State.StepsTo`. -/
theorem step_of_wf {s : State} {op : HostOp} {rest : List HostOp} (hs : s.script = op :: rest) (hw : op.wf s.cfg = true) :
    ∃ t, step s = .next t ∧ s.StepsTo t := by
  cases op with
  | writeReg no v =>
    cases hno : Reg.ofNum no with
    | none => exact ⟨_, step_writeAbsent hs hno, .writeAbsent hs hno⟩
    | some r =>
      obtain rfl := Reg.num_of_ofNum hno
      have hv := writeReg_wf_iff.1 hw
      by_cases hr : r = .cmd
      · subst hr
        obtain ⟨t, ht, hends⟩ := runCommand_ends (BitVec.ofNat 8 v) ((s.popped rest).hostSetReg .cmd v)
        exact ⟨t, (step_writeCmd hs hv).trans ht, .command hs hv hends⟩
      · exact ⟨_, step_writeReg hs hr hv, .writeReg hs hr hv⟩
  | readReg no => exact ⟨_, step_readReg hs, .readReg hs⟩
  | writeMem b a v => exact ⟨_, step_wf hs hw, .writeMem hs (writeMem_wf_iff.1 hw)⟩
  | readMem b a => exact ⟨_, step_wf hs hw, .readMem hs (mem_wf_iff.1 hw)⟩
  | reset => exact ⟨_, step_wf hs hw, .reset hs⟩

/-- The inversion of a step. -/
theorem stepsTo_of_step {s t : State} (h : step s = .next t) : s.StepsTo t := by
  cases hs : s.script with
  | nil =>
    obtain rfl := Host.Outcome.next.inj ((step_idle hs).symm.trans h)
    exact .idle hs
  | cons op rest =>
    obtain ⟨u, hu, hsteps⟩ := step_of_wf hs (wf_of_step_next hs h)
    obtain rfl := Host.Outcome.next.inj (hu.symm.trans h)
    exact hsteps

/-! ### The registers after a host's register write -/

/-- A write to a read-only register is ignored (10_state.md R33). -/
theorem State.hostSetReg_readOnly (s : State) {r : Reg} (h : r.hostWritable = false) (v : Nat) : s.hostSetReg r v = s := by
  cases r <;> first | rfl | exact absurd h (by decide)

theorem State.readReg_hostSetReg_same (s : State) {r : Reg} (h : r.hostWritable = true) (hr : r ≠ .cmd) (v : Nat) :
    (s.hostSetReg r v).readReg r = v := by
  cases r <;> first | rfl | exact absurd rfl hr | exact absurd h (by decide)

theorem State.readReg_hostSetReg_other (s : State) {r q : Reg} (h : q ≠ r) (v : Nat) :
    (s.hostSetReg r v).readReg q = s.readReg q := by
  cases r <;> cases q <;> first | rfl | exact absurd rfl h

@[simp] theorem State.hostSetReg_cfg (s : State) (r : Reg) (v : Nat) : (s.hostSetReg r v).cfg = s.cfg := by
  cases r <;> rfl

@[simp] theorem State.hostSetReg_buffer (s : State) (r : Reg) (v : Nat) : (s.hostSetReg r v).buffer = s.buffer := by
  cases r <;> rfl

/-! ### The buffers after a host's buffer write -/

theorem hostWriteMem_output {b : Buffer} (hb : b.hostWritable = false) (a : Nat) (v : Byte) (s : State) :
    hostWriteMem b a v s = s := by simp [hostWriteMem, hb]

theorem hostWriteMem_input {b : Buffer} (hb : b.hostWritable = true) (a : Nat) (v : Byte) (s : State) :
    hostWriteMem b a v s = s.setBuffer b (Memory.write (s.buffer b) a v) := by simp [hostWriteMem, hb]

@[simp] theorem hostWriteMem_cfg (b : Buffer) (a : Nat) (v : Byte) (s : State) : (hostWriteMem b a v s).cfg = s.cfg := by
  cases b <;> rfl

@[simp] theorem hostWriteMem_readReg (b : Buffer) (a : Nat) (v : Byte) (s : State) :
    (hostWriteMem b a v s).readReg = s.readReg := by cases b <;> rfl

/-! ### What only commands and reset change -/

/-- CMD, STATUS, ERR, the output registers and the output buffers of `s` are those of `t`. -/
structure State.SameOutputs (s t : State) : Prop where
  cmd : t.cmd = s.cmd
  status : t.status = s.status
  err : t.err = s.err
  owidth : t.owidth = s.owidth
  oheight : t.oheight = s.oheight
  oylen : t.oylen = s.oylen
  ouvlen : t.ouvlen = s.ouvlen
  orgblen : t.orgblen = s.orgblen
  yout : t.yout = s.yout
  uvout : t.uvout = s.uvout
  rgbout : t.rgbout = s.rgbout

theorem State.SameOutputs.trans {s t u : State} (h : s.SameOutputs t) (h' : t.SameOutputs u) : s.SameOutputs u :=
  ⟨h'.cmd.trans h.cmd, h'.status.trans h.status, h'.err.trans h.err, h'.owidth.trans h.owidth, h'.oheight.trans h.oheight,
    h'.oylen.trans h.oylen, h'.ouvlen.trans h.ouvlen, h'.orgblen.trans h.orgblen, h'.yout.trans h.yout,
    h'.uvout.trans h.uvout, h'.rgbout.trans h.rgbout⟩

/-- Outputs are the same where only the model's own fields differ. -/
theorem State.sameOutputs_host (s : State) (script : List HostOp) (returned : List HostResult) (draws : Nat) :
    s.SameOutputs { s with script := script, returned := returned, draws := draws } := by constructor <;> rfl

theorem State.hostSetReg_sameOutputs (s : State) {r : Reg} (hr : r ≠ .cmd) (v : Nat) :
    s.SameOutputs (s.hostSetReg r v) := by
  cases r <;> first | exact absurd rfl hr | (constructor <;> rfl)

theorem hostWriteMem_sameOutputs (b : Buffer) (a : Nat) (v : Byte) (s : State) :
    s.SameOutputs (hostWriteMem b a v s) := by
  cases b <;> constructor <;> rfl

/-- A step that neither writes CMD nor resets keeps CMD, STATUS, ERR and the outputs. -/
theorem State.StepsTo.sameOutputs {s t : State} (h : s.StepsTo t) (hcmd : ∀ v rest, s.script ≠ .writeReg 0 v :: rest)
    (hreset : ∀ rest, s.script ≠ .reset :: rest) : s.SameOutputs t := by
  cases h with
  | idle hs => exact s.sameOutputs_host _ _ _
  | command hs => exact absurd hs (hcmd _ _)
  | writeReg hs hr => exact (s.sameOutputs_host _ _ _).trans ((s.popped _).hostSetReg_sameOutputs hr _)
  | writeAbsent hs => exact s.sameOutputs_host _ _ _
  | readReg hs => exact s.sameOutputs_host _ _ _
  | writeMem hs => exact (s.sameOutputs_host _ _ _).trans (hostWriteMem_sameOutputs _ _ _ (s.popped _))
  | readMem hs => exact s.sameOutputs_host _ _ _
  | reset hs => exact absurd hs (hreset _)

/-- Settles O42: the cases of a step, a write of CMD and the reset event excluded (`State.StepsTo.sameOutputs`). -/
theorem onlyCommandsAndResetChangeOutputs : Obligations.OnlyCommandsAndResetChangeOutputs := by
  intro s t hstep hcmd hreset
  have h := (stepsTo_of_step hstep).sameOutputs hcmd hreset
  exact ⟨h.cmd, h.status, h.err, h.owidth, h.oheight, h.oylen, h.ouvlen, h.orgblen, h.yout, h.uvout, h.rgbout⟩

/-- Settles O41: a command ends DONE or ERROR, and every other operation but the reset event keeps STATUS. -/
theorem idleOnlyAfterReset : Obligations.IdleOnlyAfterReset := by
  intro s t hstep hidle
  cases stepsTo_of_step hstep with
  | idle hs => exact .inl hidle
  | command hs hv ht => exact absurd hidle ht.status_ne_idle
  | @writeReg r v rest hs hr => exact .inl (((s.popped rest).hostSetReg_sameOutputs hr v).status.symm.trans hidle)
  | writeAbsent hs => exact .inl hidle
  | readReg hs => exact .inl hidle
  | @writeMem b a v rest hs => exact .inl ((hostWriteMem_sameOutputs b a v (s.popped rest)).status.symm.trans hidle)
  | readMem hs => exact .inl hidle
  | reset hs => exact .inr ⟨_, hs⟩

end Sys2Proof.Machine
end

section
/-! The legal states (`State.Inv`) are kept by every step. -/

namespace Sys2Proof.Machine

/-! ### Host operations -/

/-- An operation that changes no output keeps the state legal if the registers and the buffers still fit. -/
theorem State.Inv.of_sameOutputs {s t : State} (h : s.Inv) (hcfg : t.cfg = s.cfg) (ho : s.SameOutputs t) (hr : t.RegsFit)
    (hb : t.BuffersFit) : t.Inv where
  cfgOK := hcfg ▸ h.cfgOK
  regsFit := hr
  buffersFit := hb
  errMatchesStatus := by
    have := h.errMatchesStatus
    rwa [State.ErrMatchesStatus, ← ho.err, ← ho.status] at this
  outputShape := by
    have := h.outputShape
    simpa only [State.OutputShape, State.NoOutput, State.FrameOutput, State.RgbOutput, ← ho.status, ← ho.cmd, ← ho.owidth,
      ← ho.oheight, ← ho.oylen, ← ho.ouvlen, ← ho.orgblen] using this
  extentsWritten := by
    have := h.extentsWritten
    simpa only [State.ExtentsWritten, ← ho.oylen, ← ho.ouvlen, ← ho.orgblen, ← ho.yout, ← ho.uvout, ← ho.rgbout] using this

/-- The model's own host fields are not part of what is legal (notes/assumptions/3.md). -/
theorem State.Inv.withHost {s : State} (h : s.Inv) (script : List HostOp) (returned : List HostResult) (draws : Nat) :
    State.Inv { s with script := script, returned := returned, draws := draws } :=
  h.of_sameOutputs rfl (s.sameOutputs_host _ _ _) h.regsFit h.buffersFit

theorem State.RegsFit.hostSetReg {s : State} (h : s.RegsFit) {r : Reg} (hr : r ≠ .cmd) {v : Nat}
    (hv : v < 2 ^ r.bits s.cfg) : (s.hostSetReg r v).RegsFit := by
  intro q
  rw [State.hostSetReg_cfg]
  by_cases hq : q = r
  · subst hq
    cases hw : q.hostWritable with
    | true => rwa [s.readReg_hostSetReg_same hw hr]
    | false => rw [s.hostSetReg_readOnly hw]; exact h q
  · rw [s.readReg_hostSetReg_other hq]
    exact h q

theorem State.Inv.hostSetReg {s : State} (h : s.Inv) {r : Reg} (hr : r ≠ .cmd) {v : Nat} (hv : v < 2 ^ r.bits s.cfg) :
    (s.hostSetReg r v).Inv := by
  refine h.of_sameOutputs (s.hostSetReg_cfg r v) (s.hostSetReg_sameOutputs hr v) (h.regsFit.hostSetReg hr hv) fun b => ?_
  rw [s.hostSetReg_buffer, s.hostSetReg_cfg]
  exact h.buffersFit b

theorem State.BuffersFit.hostWriteMem {s : State} (h : s.BuffersFit) {b : Buffer} {a : Nat} (v : Byte)
    (ha : a < b.capacity s.cfg) : (hostWriteMem b a v s).BuffersFit := by
  cases hb : b.hostWritable with
  | false => rwa [hostWriteMem_output hb]
  | true =>
    intro c
    rw [hostWriteMem_input hb, State.setBuffer_cfg]
    by_cases hc : c = b
    · subst hc
      obtain ⟨hwf, hcap⟩ := h c
      rw [State.setBuffer_buffer_same]
      refine ⟨Memory.wf_write hwf a v, fun d hd => ?_⟩
      rcases Memory.mem_write hd with rfl | hd
      · exact ha
      · exact hcap d hd
    · rw [State.setBuffer_buffer_other _ _ _ _ hc]
      exact h c

theorem State.Inv.hostWriteMem {s : State} (h : s.Inv) {b : Buffer} {a : Nat} (v : Byte) (ha : a < b.capacity s.cfg) :
    (hostWriteMem b a v s).Inv := by
  refine h.of_sameOutputs (hostWriteMem_cfg b a v s) (hostWriteMem_sameOutputs b a v s) (fun r => ?_)
    (h.buffersFit.hostWriteMem v ha)
  rw [hostWriteMem_readReg, hostWriteMem_cfg]
  exact h.regsFit r

/-! ### Commands -/

/-- What a command needs of the state it starts from: a legal one but for the outcome of the command before it. -/
structure State.OperandsLegal (s : State) : Prop where
  cfgOK : s.cfg.wf
  regsFit : s.RegsFit
  buffersFit : s.BuffersFit

/-- The host's write of the command word leaves such a state. -/
theorem State.Inv.withCmd {s : State} (h : s.Inv) (v : Nat) : (s.hostSetReg .cmd v).OperandsLegal where
  cfgOK := h.cfgOK
  regsFit r := by
    by_cases hr : r = .cmd
    · subst hr
      exact (s.hostSetReg .cmd v).cmd.isLt
    · rw [s.readReg_hostSetReg_other hr]
      exact h.regsFit r
  buffersFit := h.buffersFit

/-- The bounds on the output registers that a command leaves (10_state.md R29, "Widths suffice"; 20_memory.md R62). -/
theorem State.CommandEffect.output_bounds {s t : State} (he : s.CommandEffect t) (h : s.OperandsLegal) :
    t.owidth < 2 ^ s.cfg.n ∧ t.oheight < 2 ^ s.cfg.n ∧ t.oylen < 2 ^ (2 * s.cfg.n) ∧ t.ouvlen < 2 ^ (2 * s.cfg.n - 1) ∧
      t.ouvlen < 2 ^ (2 * s.cfg.n) ∧ t.orgblen < 3 * 2 ^ (2 * s.cfg.n) ∧ t.orgblen < 2 ^ (2 * s.cfg.n + 2) := by
  have hn : 1 ≤ s.cfg.n := le_trans (by decide) h.cfgOK
  have hw : s.width < 2 ^ s.cfg.n := h.regsFit .width
  have hh : s.height < 2 ^ s.cfg.n := h.regsFit .height
  have how := he.owidth_le.trans_lt hw
  have hoh := he.oheight_le.trans_lt hh
  obtain ⟨hy, huvCap, huv, -, -⟩ := plane_bounds hn how hoh
  obtain ⟨-, -, -, hrgbCap, hrgb⟩ := plane_bounds hn hw hh
  rw [← he.oylen_eq] at hy
  rw [← he.ouvlen_eq] at huvCap huv
  exact ⟨how, hoh, hy, huvCap, huv, he.orgblen_le.trans_lt hrgbCap, he.orgblen_le.trans_lt hrgb⟩

theorem State.CommandEffect.regsFit {s t : State} (he : s.CommandEffect t) (h : s.OperandsLegal) : t.RegsFit := by
  have hin := he.inputs
  obtain ⟨how, hoh, hy, -, huv, -, hrgb⟩ := he.output_bounds h
  exact State.regsFit_of h.regsFit hin.cfg hin.width hin.height hin.cropw hin.croph hin.ylen hin.uvlen how hoh hy huv hrgb

theorem State.CommandEffect.buffersFit {s t : State} (he : s.CommandEffect t) (h : s.OperandsLegal) : t.BuffersFit := by
  have hin := he.inputs
  obtain ⟨-, -, hy, huv, -, hrgb, -⟩ := he.output_bounds h
  exact State.buffersFit_of h.buffersFit hin.cfg hin.yin hin.uvin (he.yout.fits (h.buffersFit .yout) hy.le)
    (he.uvout.fits (h.buffersFit .uvout) huv.le) (he.rgbout.fits (h.buffersFit .rgbout) hrgb.le)

theorem State.CommandEffect.extentsWritten {s t : State} (he : s.CommandEffect t) : t.ExtentsWritten :=
  ⟨fun _ ha => he.yout.written ha, fun _ ha => he.uvout.written ha, fun _ ha => he.rgbout.written ha⟩

/-- An area of even sides, three bytes a pixel, is a positive multiple of 12. -/
theorem rgbLength_pos_and_mod {w h : Nat} (hw : 0 < w) (hh : 0 < h) (hw2 : w % 2 = 0) (hh2 : h % 2 = 0) :
    0 < 3 * w * h ∧ 3 * w * h % 12 = 0 := by
  obtain ⟨k, rfl⟩ := Nat.dvd_of_mod_eq_zero hw2
  obtain ⟨l, rfl⟩ := Nat.dvd_of_mod_eq_zero hh2
  refine ⟨by positivity, ?_⟩
  rw [show 3 * (2 * k) * (2 * l) = 12 * (k * l) by ring]
  exact Nat.mul_mod_right ..

/-- The shape of the outputs is that of the command word (10_state.md R29). -/
theorem State.CommandEnds.outputShape {w : Byte} {s t : State} (h : s.CommandEnds w t) (hcmd : s.cmd = w) :
    t.OutputShape := by
  cases h with
  | rejected e he => exact ⟨rfl, rfl, rfl, rfl, rfl⟩
  | compressed hw hd h3 =>
    obtain ⟨-, -, hw0, hh0, hw2, hh2⟩ := State.compress_sides hd h3
    exact .inl ⟨.inl (hcmd.trans hw), hw0, hh0, hw2, hh2, rfl, rfl, rfl⟩
  | cropped hw hd hc =>
    obtain ⟨-, -, hw0, hh0, hw2, hh2⟩ := State.crop_sides hd hc
    exact .inl ⟨.inr (hcmd.trans hw), hw0, hh0, hw2, hh2, rfl, rfl, rfl⟩
  | converted hw hd =>
    obtain ⟨hw0, hh0, hw2, hh2⟩ := s.dimsOK_iff.1 hd
    exact .inr ⟨hcmd.trans hw, rfl, rfl, rfl, rfl, rgbLength_pos_and_mod hw0 hh0 hw2 hh2⟩

theorem State.CommandEnds.errMatchesStatus {w : Byte} {s t : State} (h : s.CommandEnds w t) : t.ErrMatchesStatus := by
  cases h with
  | rejected e he => exact iff_of_false he fun hne => hne rfl
  | compressed => exact iff_of_true rfl Status.noConfusion
  | cropped => exact iff_of_true rfl Status.noConfusion
  | converted => exact iff_of_true rfl Status.noConfusion

theorem State.CommandEnds.inv {w : Byte} {s t : State} (h : s.CommandEnds w t) (hs : s.OperandsLegal) (hcmd : s.cmd = w) :
    t.Inv where
  cfgOK := h.effect.inputs.cfg ▸ hs.cfgOK
  regsFit := h.effect.regsFit hs
  buffersFit := h.effect.buffersFit hs
  errMatchesStatus := h.errMatchesStatus
  outputShape := h.outputShape hcmd
  extentsWritten := h.effect.extentsWritten

/-! ### Every step -/

theorem State.StepsTo.inv {s t : State} (h : s.StepsTo t) (hs : s.Inv) : t.Inv := by
  have hpop : ∀ rest, (s.popped rest).Inv := fun rest => hs.withHost rest _ _
  cases h with
  | idle => exact hs
  | command _ _ ht => exact ht.inv ((hpop _).withCmd _) rfl
  | writeReg _ hr hv => exact (hpop _).hostSetReg hr hv
  | writeAbsent => exact hpop _
  | readReg => exact hs.withHost _ _ _
  | writeMem _ ha => exact (hpop _).hostWriteMem _ ha
  | readMem => exact hs.withHost _ _ _
  | reset => exact (State.resetOf_inv hs.cfgOK).withHost _ _ _

/-- Settles O38: each case of a step keeps `State.Inv` (`State.StepsTo.inv`). A command needs only that the operands and buffers it
starts from are legal, since its outcome replaces the one before it. -/
theorem everyStepKeepsTheStateLegal : Obligations.EveryStepKeepsTheStateLegal :=
  fun _ _ hs hstep => (stepsTo_of_step hstep).inv hs

end Sys2Proof.Machine
end

section
/-! The registers by number and width, which host operations make a step, and the values after reset. -/

namespace Sys2Proof.Machine

/-! ### Register reads and the host's record -/

/-- The registers in the order of their numbers (10_state.md R22). -/
def Reg.all : List Reg :=
  [.cmd, .status, .err, .width, .height, .cropw, .croph, .ylen, .uvlen, .owidth, .oheight, .oylen, .ouvlen, .orgblen]

/-- The registers that the host can only read. -/
def Reg.readOnly : List Reg := [.status, .err, .owidth, .oheight, .oylen, .ouvlen, .orgblen]

theorem Reg.readOnly_hostWritable : ∀ r ∈ Reg.readOnly, r.hostWritable = false := by decide

theorem statusNumber_eq (x : Status) : statusNumber x = x.code.toNat := by cases x <;> rfl

theorem errNumber_eq (x : ErrCode) : errNumber x = x.code.toNat := by cases x <;> rfl

/-- A read of an existing register returns its value and only notes it. -/
theorem hostReadReg_num (r : Reg) (s : State) :
    hostReadReg r.num s = { s with returned := s.returned ++ [.reg r.num (s.readReg r)] } := by
  simp [hostReadReg, hostRegValue, Reg.ofNum_num]

/-- A read of a register number that does not exist returns 0 (10_state.md R33). -/
theorem hostReadReg_absent {no : Nat} (h : Reg.ofNum no = none) (s : State) :
    hostReadReg no s = { s with returned := s.returned ++ [.reg no 0] } := by
  simp [hostReadReg, hostRegValue, h]

theorem State.popped_readReg (s : State) (rest : List HostOp) : (s.popped rest).readReg = s.readReg := rfl

/-- A write to a read-only register changes no state. -/
theorem step_writeReg_readOnly {s : State} {r : Reg} {v : Nat} {rest : List HostOp}
    (hs : s.script = .writeReg r.num v :: rest) (hr : r.hostWritable = false) (hv : v < 2 ^ r.bits s.cfg) :
    step s = .next (s.popped rest) := by
  have hcmd : r ≠ .cmd := by rintro rfl; exact absurd hr (by decide)
  rw [step_writeReg hs hcmd hv, State.hostSetReg_readOnly _ hr]

/-- Settles O31: the two tables of numbers are `Reg.readOnly` with the widths and `Reg.all` with the values. -/
theorem registerAccessRights : Obligations.RegisterAccessRights := by
  intro s rest no v
  refine ⟨fun hs => ⟨?_, fun hno => step_writeAbsent hs (Reg.ofNum_eq_none hno), ?_, ?_, ?_, ?_, ?_, ?_⟩,
    fun hs => ⟨?_, fun hno => ?_⟩⟩
  · change ∀ p ∈ Reg.readOnly.map fun r => (r.num, r.bits s.cfg), _
    rw [List.forall_mem_map]
    rintro r hr rfl hv
    exact step_writeReg_readOnly hs (Reg.readOnly_hostWritable r hr) hv
  · rintro rfl hv; exact step_writeReg (r := .width) hs (by decide) hv
  · rintro rfl hv; exact step_writeReg (r := .height) hs (by decide) hv
  · rintro rfl hv; exact step_writeReg (r := .cropw) hs (by decide) hv
  · rintro rfl hv; exact step_writeReg (r := .croph) hs (by decide) hv
  · rintro rfl hv; exact step_writeReg (r := .ylen) hs (by decide) hv
  · rintro rfl hv; exact step_writeReg (r := .uvlen) hs (by decide) hv
  · rw [statusNumber_eq, errNumber_eq]
    change ∀ p ∈ Reg.all.map fun r => (r.num, s.readReg r), _
    rw [List.forall_mem_map]
    rintro r - rfl
    rw [step_readReg hs, hostReadReg_num, s.popped_readReg]
  · rw [step_readReg hs, hostReadReg_absent (Reg.ofNum_eq_none hno)]

/-! ### Which host operations make a step -/

/-- A step takes one operation off the script and keeps the parameter. -/
theorem State.StepsTo.script_cfg {s t : State} {op : HostOp} {rest : List HostOp} (hs : s.script = op :: rest)
    (h : s.StepsTo t) : t.script = rest ∧ t.cfg = s.cfg := by
  have tail : ∀ {op' rest'}, s.script = op' :: rest' → rest' = rest := fun h' => (List.cons.inj (h'.symm.trans hs)).2
  cases h with
  | idle h' => exact absurd (hs.symm.trans h') (List.cons_ne_nil _ _)
  | command h' _ ht =>
    have hin := ht.effect.inputs
    exact ⟨hin.script.trans (tail h'), hin.cfg⟩
  | @writeReg r v rest' h' => cases r <;> exact ⟨tail h', rfl⟩
  | writeAbsent h' => exact ⟨tail h', rfl⟩
  | readReg h' => exact ⟨tail h', rfl⟩
  | @writeMem b a v rest' h' => cases b <;> exact ⟨tail h', rfl⟩
  | readMem h' => exact ⟨tail h', rfl⟩
  | reset h' => exact ⟨tail h', rfl⟩

/-- The operations that make a step are those that a port can carry. -/
theorem wf_iff_makesAStep {s : State} {op : HostOp} {rest : List HostOp} (hs : s.script = op :: rest) :
    op.wf s.cfg = true ↔ MakesAStep s rest := by
  constructor
  · intro hw
    obtain ⟨t, ht, hsteps⟩ := step_of_wf hs hw
    exact ⟨t, ht, hsteps.script_cfg hs⟩
  · rintro ⟨t, ht, -⟩
    exact wf_of_step_next hs ht

/-- An access at or above a buffer's capacity stops the step, by name. -/
theorem writeMem_portFault {c : Config} {b : Buffer} {a : Nat} (v : Byte) (h : b.capacity c ≤ a) :
    HostOp.portFault c (.writeMem b a v) = some (.indexBeyondCapacity b a) := by
  simp only [HostOp.portFault, if_neg (Nat.not_lt.2 h)]

theorem readMem_portFault {c : Config} {b : Buffer} {a : Nat} (h : b.capacity c ≤ a) :
    HostOp.portFault c (.readMem b a) = some (.indexBeyondCapacity b a) := by
  simp only [HostOp.portFault, if_neg (Nat.not_lt.2 h)]

/-- The five buffers (20_memory.md R60). -/
def Buffer.all : List Buffer := [.yin, .uvin, .yout, .uvout, .rgbout]

/-- Settles O36: an operation makes a step exactly when a port can carry it (`wf_iff_makesAStep`), and the two tables are the
widths of `Reg.all` and the capacities of `Buffer.all`. -/
theorem onlyInexpressibleOperationsStop : Obligations.OnlyInexpressibleOperationsStop := by
  intro s op rest hs
  have steps : op.wf s.cfg = true → MakesAStep s rest := (wf_iff_makesAStep hs).1
  refine ⟨?_, ?_, ?_, ?_, ?_, wf_iff_makesAStep hs⟩
  · change ∀ p ∈ Reg.all.map fun r => (r.num, r.bits s.cfg), _
    rw [List.forall_mem_map]
    rintro r - v rfl
    exact ⟨fun hv => steps (writeReg_wf_iff.2 hv), fun hv => step_fault hs (writeReg_portFault hv)⟩
  · rintro no v rfl hno
    exact steps (absent_wf (Reg.ofNum_eq_none hno))
  · rintro no rfl
    exact steps rfl
  · change ∀ p ∈ Buffer.all.map fun b => (b, b.capacity s.cfg), _
    rw [List.forall_mem_map]
    rintro b - a v (rfl | rfl)
    · exact ⟨fun ha => steps (writeMem_wf_iff.2 ha), fun ha => step_fault hs (writeMem_portFault v ha)⟩
    · exact ⟨fun ha => steps (mem_wf_iff.2 ha), fun ha => step_fault hs (readMem_portFault ha)⟩
  · rintro rfl
    exact steps rfl

/-! ### Reset, and equal buffers -/

/-- `DimsOK` is the first check of every command (60_exceptions.md R216). -/
theorem exec_of_dimsOK_eq_false {s : State} (h : s.dimsOK = false) (i : Instr) :
    exec i s = .next (s.raise .invalidDimensions) := by
  cases i <;> simp [exec, execCompress, execCrop, execTorgb, h]

/-- Settles O34: after reset WIDTH and HEIGHT are 0, so `DimsOK` fails. -/
theorem resetValuesOfTheRegisters : Obligations.ResetValuesOfTheRegisters :=
  ⟨State.resetOf_readReg _, rfl, rfl, fun c i => ⟨State.resetOf_readReg c, exec_of_dimsOK_eq_false (s := .resetOf c) rfl i⟩⟩

/-- Settles O30: the law `Memory.ext_read`. -/
theorem buffersThatReadAlikeAreEqual : Obligations.BuffersThatReadAlikeAreEqual :=
  fun _ _ hm hm' h => Memory.ext_read hm hm' h

end Sys2Proof.Machine
end

section
/-! The outcome of a command is a function of its operands and its input frame (10_state.md R37): two states that agree on these make
the same checks and the same stores. -/

namespace Sys2Proof.Machine

/-- Two states agree on the operands every command has and on the bytes of the input frame, all of them written. -/
structure State.AgreeOnFrame (s s' : State) : Prop where
  width : s.width = s'.width
  height : s.height = s'.height
  ylen : s.ylen = s'.ylen
  uvlen : s.uvlen = s'.uvlen
  yin : ∀ a < s.ylen, AgreeWritten s.yin s'.yin a
  uvin : ∀ a < s.uvlen, AgreeWritten s.uvin s'.uvin a

/-- Two states agree on CROP's own operands. -/
def State.AgreeOnCrop (s s' : State) : Prop := s.cropw = s'.cropw ∧ s.croph = s'.croph

/-- What a command leaves for the host is the same in two states: STATUS, ERR, the output registers and the valid extents. -/
structure State.SameOutcome (t t' : State) : Prop where
  status : t.status = t'.status
  err : t.err = t'.err
  owidth : t.owidth = t'.owidth
  oheight : t.oheight = t'.oheight
  oylen : t.oylen = t'.oylen
  ouvlen : t.ouvlen = t'.ouvlen
  orgblen : t.orgblen = t'.orgblen
  yout : ∀ a < t.oylen, Memory.read t.yout a = Memory.read t'.yout a
  uvout : ∀ a < t.ouvlen, Memory.read t.uvout a = Memory.read t'.uvout a
  rgbout : ∀ a < t.orgblen, Memory.read t.rgbout a = Memory.read t'.rgbout a

/-- A loop nest is determined by its bodies. -/
theorem loopNest_congr {h w : Nat} {f g : Nat → Nat → List Host.Cell} (hfg : ∀ r < h, ∀ c < w, f r c = g r c) :
    loopNest h w f = loopNest h w g :=
  List.flatMap_congr fun r hr => List.flatMap_congr fun c hc => hfg r (List.mem_range.1 hr) c (List.mem_range.1 hc)

/-! ### The same checks -/

variable {s s' : State}

theorem State.AgreeOnFrame.dimsOK (h : s.AgreeOnFrame s') : s'.dimsOK = s.dimsOK := by
  simp only [State.dimsOK, h.width, h.height]

theorem State.AgreeOnFrame.dims3OK (h : s.AgreeOnFrame s') : s'.dims3OK = s.dims3OK := by
  simp only [State.dims3OK, h.width, h.height]

theorem State.AgreeOnFrame.frameOK (h : s.AgreeOnFrame s') : s'.frameOK = s.frameOK := by
  simp only [State.frameOK, h.width, h.height, h.ylen, h.uvlen]

theorem State.AgreeOnFrame.cropOK (h : s.AgreeOnFrame s') (hc : s.AgreeOnCrop s') : s'.cropOK = s.cropOK := by
  simp only [State.cropOK, h.width, h.height, hc.1, hc.2]

/-! ### The same loads: no command that passes its checks reads outside the frame (40_plane_indexer.md R119) -/

theorem State.AgreeOnFrame.load_yin (h : s.AgreeOnFrame s') (hf : s.frameOK = true) {x y : Nat} (hx : x < s.width)
    (hy : y < s.height) (k k' : Nat) :
    s.load .yin (yaddr x y s.width) k = s'.load .yin (yaddr x y s.width) k' := by
  have ha : yaddr x y s.width < s.ylen := by
    rw [(s.frameOK_iff.1 hf).1, Nat.mul_comm]
    exact address_lt hy hx
  obtain ⟨hread, hwritten⟩ := h.yin _ ha
  exact State.load_eq_of_written hread hwritten

theorem State.AgreeOnFrame.load_uvin (h : s.AgreeOnFrame s') (hd : s.dimsOK = true) (hf : s.frameOK = true) {j cy : Nat}
    (hj : j < s.width) (hy : cy < s.height / 2) (k k' : Nat) :
    s.load .uvin (uvByte j cy s.width) k = s'.load .uvin (uvByte j cy s.width) k' := by
  obtain ⟨-, -, -, hh⟩ := s.dimsOK_iff.1 hd
  have ha : uvByte j cy s.width < s.uvlen := by
    rw [(s.frameOK_iff.1 hf).2, ← half_rows hh]
    exact address_lt hy hj
  obtain ⟨hread, hwritten⟩ := h.uvin _ ha
  exact State.load_eq_of_written hread hwritten

/-! ### The same stores -/

theorem State.AgreeOnFrame.compressSides (h : s.AgreeOnFrame s') :
    s'.compressWidth = s.compressWidth ∧ s'.compressHeight = s.compressHeight := by
  simp only [State.compressWidth, State.compressHeight, h.width, h.height, and_self]

theorem keptIndex_lt {k w : Nat} (h2 : w % 2 = 0) (h3 : w % 3 = 0) (hk : k < w / 3) : keptIndex k < w := by
  simp only [keptIndex]; omega

theorem State.AgreeOnFrame.compressLumaStores (h : s.AgreeOnFrame s') (hd : s.dimsOK = true) (h3 : s.dims3OK = true)
    (hf : s.frameOK = true) : compressLumaStores s = compressLumaStores s' := by
  obtain ⟨-, -, hw2, hh2⟩ := s.dimsOK_iff.1 hd
  obtain ⟨hw3, hh3⟩ := s.dims3OK_iff.1 h3
  simp only [Machine.compressLumaStores, h.compressSides, ← h.width]
  refine loopNest_congr fun oy hoy ox hox => ?_
  rw [h.load_yin hf (keptIndex_lt hw2 hw3 hox) (keptIndex_lt hh2 hh3 hoy)]

theorem State.AgreeOnFrame.compressChromaStores (h : s.AgreeOnFrame s') (hd : s.dimsOK = true) (h3 : s.dims3OK = true)
    (hf : s.frameOK = true) : compressChromaStores s = compressChromaStores s' := by
  obtain ⟨hw, hh, -, -, -, hh2⟩ := State.compress_sides hd h3
  simp only [Machine.compressChromaStores, h.compressSides, ← h.width]
  refine loopNest_congr fun cy hcy cx hcx => ?_
  rw [h.load_uvin hd hf (j := 6 * cx) (by omega) (by omega), h.load_uvin hd hf (j := 6 * cx + 1) (by omega) (by omega)]

theorem State.AgreeOnFrame.cropSides (h : s.AgreeOnFrame s') (hc : s.AgreeOnCrop s') :
    s'.cropWidth = s.cropWidth ∧ s'.cropHeight = s.cropHeight ∧ s'.cropChromaTop = s.cropChromaTop ∧
      s'.cropChromaBottom = s.cropChromaBottom := by
  simp only [State.cropWidth, State.cropHeight, State.cropChromaTop, State.cropChromaBottom, h.width, h.height, hc.1, hc.2,
    and_self]

theorem State.AgreeOnFrame.cropLumaStores (h : s.AgreeOnFrame s') (hc : s.AgreeOnCrop s') (hd : s.dimsOK = true)
    (hf : s.frameOK = true) (hok : s.cropOK = true) : cropLumaStores s = cropLumaStores s' := by
  obtain ⟨hw, hh, -, -, -, -⟩ := State.crop_sides hd hok
  simp only [Machine.cropLumaStores, h.cropSides hc, ← h.width, ← hc.1, ← hc.2]
  refine loopNest_congr fun oy hoy ox hox => ?_
  rw [h.load_yin hf (by omega) (by omega)]

theorem State.AgreeOnFrame.cropChromaStores (h : s.AgreeOnFrame s') (hc : s.AgreeOnCrop s') (hd : s.dimsOK = true)
    (hf : s.frameOK = true) (hok : s.cropOK = true) : cropChromaStores s = cropChromaStores s' := by
  obtain ⟨hw, hh, -, -, -, -⟩ := State.crop_sides hd hok
  have hbottom : s.cropChromaBottom ≤ s.height / 2 := Nat.div_le_div_right (Nat.sub_le ..)
  simp only [Machine.cropChromaStores, h.cropSides hc, ← h.width, ← hc.1]
  refine loopNest_congr fun cy hcy b hb => ?_
  rw [h.load_uvin hd hf (by omega) (by omega)]

theorem State.AgreeOnFrame.torgbStores (h : s.AgreeOnFrame s') (hd : s.dimsOK = true) (hf : s.frameOK = true) :
    torgbStores s = torgbStores s' := by
  obtain ⟨-, -, hw2, hh2⟩ := s.dimsOK_iff.1 hd
  simp only [Machine.torgbStores, ← h.width, ← h.height]
  refine loopNest_congr fun y hy x hx => ?_
  simp only [pixelStores, uaddr, vaddr, ← h.width]
  rw [h.load_yin hf hx hy, h.load_uvin hd hf (j := 2 * (x / 2)) (by omega) (by omega),
    h.load_uvin hd hf (j := 2 * (x / 2) + 1) (by omega) (by omega)]

/-! ### The same outcomes -/

theorem State.raise_sameOutcome (s s' : State) (e : ErrCode) : (s.raise e).SameOutcome (s'.raise e) where
  status := rfl
  err := rfl
  owidth := rfl
  oheight := rfl
  oylen := rfl
  ouvlen := rfl
  orgblen := rfl
  yout a ha := absurd ha a.not_lt_zero
  uvout a ha := absurd ha a.not_lt_zero
  rgbout a ha := absurd ha a.not_lt_zero

theorem State.AgreeOnFrame.compressed (h : s.AgreeOnFrame s') (hd : s.dimsOK = true) (h3 : s.dims3OK = true)
    (hf : s.frameOK = true) : s.compressed.SameOutcome s'.compressed := by
  obtain ⟨hw, hh⟩ := h.compressSides
  constructor
  case yout =>
    intro a ha
    rw [s.compressed_yout, s'.compressed_yout, ← h.compressLumaStores hd h3 hf]
    exact Memory.read_writeAll_extent (compressLuma_indices s) ha
  case uvout =>
    intro a ha
    rw [s.compressed_uvout, s'.compressed_uvout, ← h.compressChromaStores hd h3 hf]
    exact Memory.read_writeAll_extent (compressChroma_indices hd h3) ha
  case rgbout => intro a ha; exact absurd ha a.not_lt_zero
  all_goals simp [hw, hh]

theorem State.AgreeOnFrame.cropped (h : s.AgreeOnFrame s') (hc : s.AgreeOnCrop s') (hd : s.dimsOK = true)
    (hf : s.frameOK = true) (hok : s.cropOK = true) : s.cropped.SameOutcome s'.cropped := by
  obtain ⟨hw, hh, -, -⟩ := h.cropSides hc
  constructor
  case yout =>
    intro a ha
    rw [s.cropped_yout, s'.cropped_yout, ← h.cropLumaStores hc hd hf hok]
    exact Memory.read_writeAll_extent (cropLuma_indices s) ha
  case uvout =>
    intro a ha
    rw [s.cropped_uvout, s'.cropped_uvout, ← h.cropChromaStores hc hd hf hok]
    exact Memory.read_writeAll_extent (cropChroma_indices hd hok) ha
  case rgbout => intro a ha; exact absurd ha a.not_lt_zero
  all_goals simp [hw, hh]

theorem State.AgreeOnFrame.converted (h : s.AgreeOnFrame s') (hd : s.dimsOK = true) (hf : s.frameOK = true) :
    s.converted.SameOutcome s'.converted := by
  constructor
  case yout => intro a ha; exact absurd ha a.not_lt_zero
  case uvout => intro a ha; exact absurd ha a.not_lt_zero
  case rgbout =>
    intro a ha
    rw [s.converted_rgbout, s'.converted_rgbout, ← h.torgbStores hd hf]
    exact Memory.read_writeAll_extent (torgb_indices s) ha
  all_goals simp [h.width, h.height]

/-- The same checks lead to the same error or to the same work. -/
theorem exec_sameOutcome (i : Instr) (h : s.AgreeOnFrame s') (hc : i = .crop → s.AgreeOnCrop s') :
    ∃ t t', exec i s = .next t ∧ exec i s' = .next t' ∧ t.SameOutcome t' := by
  have raised : ∀ e, (s.raise e).SameOutcome (s'.raise e) := s.raise_sameOutcome s'
  cases hd : s.dimsOK with
  | false =>
    exact ⟨_, _, exec_of_dimsOK_eq_false hd i, exec_of_dimsOK_eq_false (h.dimsOK.trans hd) i, raised _⟩
  | true =>
  cases i with
  | compress =>
    simp only [exec, execCompress, h.dimsOK, h.dims3OK, h.frameOK, hd]
    cases h3 : s.dims3OK with
    | false => exact ⟨_, _, rfl, rfl, raised _⟩
    | true =>
      cases hf : s.frameOK with
      | false => exact ⟨_, _, rfl, rfl, raised _⟩
      | true => exact ⟨_, _, rfl, rfl, h.compressed hd h3 hf⟩
  | crop =>
    have hc := hc rfl
    simp only [exec, execCrop, h.dimsOK, h.frameOK, h.cropOK hc, hd]
    cases hf : s.frameOK with
    | false => exact ⟨_, _, rfl, rfl, raised _⟩
    | true =>
      cases hok : s.cropOK with
      | false => exact ⟨_, _, rfl, rfl, raised _⟩
      | true => exact ⟨_, _, rfl, rfl, h.cropped hc hd hf hok⟩
  | torgb =>
    simp only [exec, execTorgb, h.dimsOK, h.frameOK, hd]
    cases hf : s.frameOK with
    | false => exact ⟨_, _, rfl, rfl, raised _⟩
    | true => exact ⟨_, _, rfl, rfl, h.converted hd hf⟩

/-- Settles O16: states that agree on the operands and the input frame have the same outcome (`exec_sameOutcome`). -/
theorem outcomeDependsOnlyOnOperandsAndInputFrame : Obligations.OutcomeDependsOnlyOnOperandsAndInputFrame := by
  intro i s s' hw hh hy huv hc hyin huvin
  obtain ⟨t, t', ht, ht', h⟩ := exec_sameOutcome i ⟨hw, hh, hy, huv, hyin, huvin⟩ hc
  exact ⟨t, t', ht, ht', h.status, h.err, h.owidth, h.oheight, h.oylen, h.ouvlen, h.orgblen, h.yout, h.uvout, h.rgbout⟩

end Sys2Proof.Machine
end

section
/-! The stores of a command: they change nothing outside the new valid extents, and their order is not observable
(20_memory.md R77, R78). -/

namespace Sys2Proof.Machine

/-! ### Which bytes a command leaves as they were -/

/-- Stores that run through an extent leave every byte at or above it. -/
theorem Memory.StoresExtent.read_beyond {m m' : Memory} {n a : Nat} (h : Memory.StoresExtent m m' n) (ha : n ≤ a) :
    Memory.read m' a = Memory.read m a := by
  obtain ⟨l, rfl, hl⟩ := h
  refine Memory.read_writeAll_of_not_stored fun c hc he => ?_
  have hmem : c.1 ∈ l.map Prod.fst := List.mem_map_of_mem hc
  rw [hl, List.mem_range] at hmem
  omega

/-- Stores that run through an empty extent leave every byte. -/
theorem Memory.StoresExtent.read_of_empty {m m' : Memory} {n : Nat} (h : Memory.StoresExtent m m' n) (hn : n = 0)
    (a : Nat) : Memory.read m' a = Memory.read m a := h.read_beyond (hn.trans_le a.zero_le)

/-- Only TORGB leaves an RGB sequence (10_state.md R29). -/
theorem State.CommandEnds.orgblen_eq_zero {w : Byte} {s t : State} (h : s.CommandEnds w t) (hw : w ≠ 0x03#8) :
    t.orgblen = 0 := by
  cases h with
  | rejected => exact s.raise_orgblen _
  | compressed => exact s.compressed_orgblen
  | cropped => exact s.cropped_orgblen
  | converted hw' => exact absurd hw' hw

/-- TORGB leaves no frame (10_state.md R29). -/
theorem State.CommandEnds.frameLengths_eq_zero {s t : State} (h : s.CommandEnds 0x03#8 t) :
    t.oylen = 0 ∧ t.ouvlen = 0 := by
  cases h with
  | rejected => exact ⟨s.raise_oylen _, s.raise_ouvlen _⟩
  | compressed hw => exact absurd hw (by decide)
  | cropped hw => exact absurd hw (by decide)
  | converted => exact ⟨s.converted_oylen, s.converted_ouvlen⟩

/-- Settles O12: a command stores the new extents only (`State.CommandEnds.effect`), and COMPRESS and CROP leave that of RGBOUT
empty. -/
theorem frameCommandsWriteOnlyTheNewExtents : Obligations.FrameCommandsWriteOnlyTheNewExtents := by
  intro i s hi
  obtain ⟨t, ht, hends⟩ := exec_ends i s
  have h := hends.effect
  have hword : encode i ≠ 0x03#8 := by rcases hi with rfl | rfl <;> decide
  exact ⟨t, ht, fun _ => by rw [h.inputs.yin], fun _ => by rw [h.inputs.uvin],
    h.rgbout.read_of_empty (hends.orgblen_eq_zero hword), fun _ => h.yout.read_beyond, fun _ => h.uvout.read_beyond⟩

/-- Settles O13: a command stores the new extents only (`State.CommandEnds.effect`), and TORGB leaves those of YOUT and UVOUT
empty. -/
theorem torgbWritesOnlyTheNewExtent : Obligations.TorgbWritesOnlyTheNewExtent := by
  intro s
  obtain ⟨t, ht, hends⟩ := exec_ends .torgb s
  have h := hends.effect
  obtain ⟨hy, huv⟩ := hends.frameLengths_eq_zero
  exact ⟨t, ht, fun _ => by rw [h.inputs.yin], fun _ => by rw [h.inputs.uvin], h.yout.read_of_empty hy,
    h.uvout.read_of_empty huv, fun _ => h.rgbout.read_beyond⟩

/-! ### The indices and the order of a command's stores -/

/-- Settles O14: the indices of each of the five loop nests. -/
theorem eachOutputIndexIsStoredOnce : Obligations.EachOutputIndexIsStoredOnce := fun s hd =>
  ⟨fun h3 => ⟨compressLuma_indices s, compressChroma_indices hd h3⟩,
    fun hc => ⟨cropLuma_indices s, cropChroma_indices hd hc⟩, torgb_indices s⟩

/-- Stores that run through an extent leave the same buffer in any other order, since each index occurs once. -/
theorem Memory.writeAll_perm_of_indices {m : Memory} (hm : Memory.wf m) {l l' : List Host.Cell} {n : Nat}
    (hl : l'.map Prod.fst = List.range n) (hp : l.Perm l') : Memory.writeAll m l = Memory.writeAll m l' := by
  have hn : (l'.map Prod.fst).Nodup := by rw [hl]; exact List.nodup_range
  exact Memory.writeAll_perm hm hp hn

/-- Settles O15: each of the five loop nests runs through an extent (`Memory.writeAll_perm_of_indices`). -/
theorem storeOrderIsNotObservable : Obligations.StoreOrderIsNotObservable := by
  intro s m l hd hm
  refine ⟨fun h3 => ⟨?_, ?_⟩, fun hc => ⟨?_, ?_⟩, ?_⟩
  · exact Memory.writeAll_perm_of_indices hm (compressLuma_indices s)
  · exact Memory.writeAll_perm_of_indices hm (compressChroma_indices hd h3)
  · exact Memory.writeAll_perm_of_indices hm (cropLuma_indices s)
  · exact Memory.writeAll_perm_of_indices hm (cropChroma_indices hd hc)
  · exact Memory.writeAll_perm_of_indices hm (torgb_indices s)

end Sys2Proof.Machine
end

section
/-! The host's accesses to the buffers (20_memory.md R64, R66). -/

namespace Sys2Proof.Machine

theorem step_writeMem {s : State} {b : Buffer} {a : Nat} {v : Byte} {rest : List HostOp}
    (hs : s.script = .writeMem b a v :: rest) (ha : a < b.capacity s.cfg) :
    step s = .next (hostWriteMem b a v (s.popped rest)) := step_wf hs (writeMem_wf_iff.2 ha)

theorem step_readMem {s : State} {b : Buffer} {a : Nat} {rest : List HostOp} (hs : s.script = .readMem b a :: rest)
    (ha : a < b.capacity s.cfg) : step s = .next (hostReadMem b a (s.popped rest)) := step_wf hs (mem_wf_iff.2 ha)

/-- Taking an operation off the script leaves every buffer. -/
theorem State.popped_buffer (s : State) (rest : List HostOp) : (s.popped rest).buffer = s.buffer := by
  funext b; cases b <;> rfl

/-- The written index of an input buffer has the byte, every other index is as before. -/
theorem read_hostWriteMem {b : Buffer} (hb : b.hostWritable = true) (a : Nat) (v : Byte) (s : State) (a' : Nat) :
    Memory.read ((hostWriteMem b a v s).buffer b) a' = if a' = a then some v else Memory.read (s.buffer b) a' := by
  rw [hostWriteMem_input hb, State.setBuffer_buffer_same, Memory.read_write]

/-- A buffer write leaves the other buffers. -/
theorem hostWriteMem_buffer_other {b b' : Buffer} (h : b' ≠ b) (a : Nat) (v : Byte) (s : State) :
    (hostWriteMem b a v s).buffer b' = s.buffer b' := by
  cases hb : b.hostWritable with
  | false => rw [hostWriteMem_output hb]
  | true => rw [hostWriteMem_input hb, State.setBuffer_buffer_other _ _ _ _ h]

@[simp] theorem hostWriteMem_script (b : Buffer) (a : Nat) (v : Byte) (s : State) :
    (hostWriteMem b a v s).script = s.script := by cases b <;> rfl

@[simp] theorem hostWriteMem_returned (b : Buffer) (a : Nat) (v : Byte) (s : State) :
    (hostWriteMem b a v s).returned = s.returned := by cases b <;> rfl

@[simp] theorem hostWriteMem_draws (b : Buffer) (a : Nat) (v : Byte) (s : State) :
    (hostWriteMem b a v s).draws = s.draws := by cases b <;> rfl

/-- Settles O32: what `hostWriteMem` stores and leaves, for a buffer that the host may write and for one that it may not. -/
theorem hostBufferWrites : Obligations.HostBufferWrites := by
  intro s rest b a v hs ha
  have hstep := step_writeMem hs ha
  constructor
  · intro hb
    have hb : b.hostWritable = true := by rcases hb with rfl | rfl <;> rfl
    have hread := read_hostWriteMem hb a v (s.popped rest)
    refine ⟨_, hstep, (hread a).trans (if_pos rfl), fun a' hne => ?_, fun b' hne => ?_, fun r => ?_, by simp, by simp,
      by simp, by simp⟩
    · rw [hread, if_neg hne, s.popped_buffer]
    · rw [hostWriteMem_buffer_other hne, s.popped_buffer]
    · rw [hostWriteMem_readReg, s.popped_readReg]
  · intro hb
    have hb : b.hostWritable = false := by rcases hb with rfl | rfl | rfl <;> rfl
    rw [hstep, hostWriteMem_output hb]

/-- The valid extent (20_memory.md R64): below the length register of an output buffer. -/
theorem State.inExtent_iff (s : State) (b : Buffer) (a : Nat) :
    s.inExtent b a = true ↔
      (b = .yout → a < s.oylen) ∧ (b = .uvout → a < s.ouvlen) ∧ (b = .rgbout → a < s.orgblen) := by
  cases b <;> simp [State.inExtent]

/-- A host read of a written byte of the valid extent returns that byte. -/
theorem hostByteValue_of_written {s : State} {b : Buffer} {a : Nat} {v : Byte} (he : s.inExtent b a = true)
    (h : Memory.read (s.buffer b) a = some v) : hostByteValue s b a = v := by
  rw [hostByteValue, if_pos he, State.load_of_written h]

/-- Settles O33: the byte noted is `hostByteValue`, which is the written one in the valid extent. -/
theorem hostBufferReads : Obligations.HostBufferReads := by
  intro s rest b a hs ha
  refine ⟨_, step_readMem hs ha, fun hy huv hrgb v hv => hostByteValue_of_written ?_ ?_⟩
  · exact ((s.popped rest).inExtent_iff b a).2 ⟨hy, huv, hrgb⟩
  · rwa [s.popped_buffer]

end Sys2Proof.Machine
end

section
/-! Decode and dispatch of the command word (30_encoding.md R91, R93, R94). -/

namespace Sys2Proof.Machine

/-- Settles O1, by running the decoder on the seven words. -/
theorem commandWordsOfTheOpcodeMapDecode : Obligations.CommandWordsOfTheOpcodeMapDecode := by
  unfold Obligations.CommandWordsOfTheOpcodeMapDecode
  decide

/-- Settles O2: the decoder's laws `decode_ok_iff` and `decode_error`. -/
theorem decodeAgreesWithEncode : Obligations.DecodeAgreesWithEncode := fun w =>
  ⟨decode_ok_iff w, decode_error w⟩

/-- A table word of 8 bits that names a command is one whose low 8 bits decode to it. -/
theorem decode_of_decodeTableWord {w : Nat} {i : Instr} (h : decodeTableWord 8 w = some i) :
    decode (BitVec.ofNat 8 (w % 2 ^ 8)) = .ok i := by
  rw [decodeTableWord, if_pos (Nat.mod_lt _ (by decide))] at h
  cases hd : decode (BitVec.ofNat 8 (w % 2 ^ 8)) with
  | ok j =>
    rw [hd] at h
    exact congrArg Except.ok (Option.some.inj h)
  | error e =>
    rw [hd] at h
    exact absurd h (Option.some_ne_none i).symm

/-- A step whose operation writes to CMD a word that decodes to a command. -/
theorem step_writeCmd_decodes {s : State} {v : Nat} {rest : List HostOp} {i : Instr}
    (hs : s.script = .writeReg 0 v :: rest) (hv : v < 2 ^ 8) (hi : decode (BitVec.ofNat 8 v) = .ok i) :
    step s = exec i { s with cmd := BitVec.ofNat 8 v, script := rest } := by
  rw [step_writeCmd hs hv, (decode_ok_iff _ i).1 hi, runCommand_legal]

/-- Settles O3: `step_writeCmd_decodes`, and the same for the write that `State.withFetchWord` puts first. -/
theorem stepRunsTheDecodedCommand : Obligations.StepRunsTheDecodedCommand := by
  refine ⟨fun s v rest i hs hv hi => step_writeCmd_decodes hs hv hi, fun s w i hw => ?_⟩
  have hlow : BitVec.ofNat 8 (w % 2 ^ 8) = BitVec.ofNat 8 w := BitVec.eq_of_toNat_eq (by simp)
  have hstep := step_writeCmd_decodes (s := s.withFetchWord 8 w) rfl (Nat.mod_lt _ (by decide))
    (decode_of_decodeTableWord hw)
  rw [hlow] at hstep
  exact hstep

/-- The values 1, 2 and 3 are the only words of commands (30_encoding.md R91). -/
theorem ofNat_ne_encode {v : Nat} (hv : v < 2 ^ 8) (h1 : v ≠ 0x01) (h2 : v ≠ 0x02) (h3 : v ≠ 0x03) (i : Instr) :
    BitVec.ofNat 8 v ≠ encode i := by
  intro h
  have hnum : v = (encode i).toNat := by
    rw [← h, BitVec.toNat_ofNat, Nat.mod_eq_of_lt hv]
  cases i
  · exact h1 hnum
  · exact h2 hnum
  · exact h3 hnum

/-- Settles O4: no command has such a word, so the step is the error sequence (`runCommand_illegal`). -/
theorem illegalWordRaisesIllegalCommand : Obligations.IllegalWordRaisesIllegalCommand := by
  intro s v rest hs hv h1 h2 h3
  rw [step_writeCmd hs hv, runCommand_illegal (ofNat_ne_encode hv h1 h2 h3)]
  rfl

end Sys2Proof.Machine
end

section
/-! The calls of the three commands on a frame value that is rejected (30_encoding.md R97; 60_exceptions.md R216). -/

namespace Sys2Proof.Machine

/-- The block holds the frame value `f` as its input frame: in the operand registers and in the input planes. -/
structure State.HoldsFrame (s : State) (f : Frame) : Prop where
  width : s.width = f.w
  height : s.height = f.h
  ylen : s.ylen = f.y.length
  uvlen : s.uvlen = f.uv.length
  yin : ∀ a < f.y.length, Memory.read s.yin a = some (f.y.getD a 0#8)
  uvin : ∀ a < f.uv.length, Memory.read s.uvin a = some (f.uv.getD a 0#8)

/-- The state in which a call's command runs: the frame loaded, CMD written and the crop amounts as given. -/
abbrev State.called (s : State) (f : Frame) (i : Instr) (cw ch : Nat) : State :=
  { s.loaded f with cmd := encode i, cropw := cw, croph := ch }

theorem State.called_holdsFrame (s : State) (f : Frame) (i : Instr) (cw ch : Nat) :
    (s.called f i cw ch).HoldsFrame f where
  width := rfl
  height := rfl
  ylen := rfl
  uvlen := rfl
  yin _ := s.read_loaded_yin f
  uvin _ := s.read_loaded_uvin f

/-! ### The checks, on the frame value -/

section
variable {s : State} {f : Frame} (h : s.HoldsFrame f)
include h

theorem State.HoldsFrame.dimsOK_iff : s.dimsOK = true ↔ f.EvenSides := by
  rw [s.dimsOK_iff, h.width, h.height, Frame.EvenSides]

theorem State.HoldsFrame.dims3OK_iff : s.dims3OK = true ↔ f.w % 3 = 0 ∧ f.h % 3 = 0 := by
  rw [s.dims3OK_iff, h.width, h.height]

theorem State.HoldsFrame.frameOK_iff : s.frameOK = true ↔ f.PlaneLengths := by
  rw [s.frameOK_iff, h.width, h.height, h.ylen, h.uvlen, Frame.PlaneLengths]

theorem State.HoldsFrame.cropOK_iff :
    s.cropOK = true ↔ s.cropw < f.w ∧ s.croph < f.h ∧ s.cropw % 2 = 0 ∧ s.croph % 2 = 0 := by
  rw [s.cropOK_iff, h.width, h.height]

end

/-! ### A call is its command, then the reads -/

theorem callCompress_eq {f : Frame} {s : State} (hf : f.Fits s.cfg) :
    (Pseudo.compress f).run s = andThen (execCompress (s.called f .compress s.cropw s.croph)) readFrame :=
  congrArg (andThen · readFrame) (perform_loadFrame_run hf .compress)

theorem callCrop_eq {f : Frame} {s : State} {cw ch : Nat} (hf : f.Fits s.cfg) (hcw : cw < 2 ^ s.cfg.n)
    (hch : ch < 2 ^ s.cfg.n) :
    (Pseudo.crop f cw ch).run s = andThen (execCrop (s.called f .crop cw ch)) readFrame :=
  congrArg (andThen · readFrame) (perform_loadFrame_crop hf hcw hch)

theorem callTorgb_eq {f : Frame} {s : State} (hf : f.Fits s.cfg) :
    (Pseudo.toRGB f).run s = andThen (execTorgb (s.called f .torgb s.cropw s.croph)) readRgb :=
  congrArg (andThen · readRgb) (perform_loadFrame_run hf .torgb)

/-! ### The rejections -/

theorem execCompress_dims3 {s : State} (hd : s.dimsOK = true) (h3 : s.dims3OK = false) :
    execCompress s = .next (s.raise .invalidDimensions) := by simp [execCompress, hd, h3]

theorem execCompress_frame {s : State} (hd : s.dimsOK = true) (h3 : s.dims3OK = true) (hf : s.frameOK = false) :
    execCompress s = .next (s.raise .invalidFrameBuffer) := by simp [execCompress, hd, h3, hf]

theorem execCrop_frame {s : State} (hd : s.dimsOK = true) (hf : s.frameOK = false) :
    execCrop s = .next (s.raise .invalidFrameBuffer) := by simp [execCrop, hd, hf]

theorem execCrop_amounts {s : State} (hd : s.dimsOK = true) (hf : s.frameOK = true) (hc : s.cropOK = false) :
    execCrop s = .next (s.raise .invalidCropParameters) := by simp [execCrop, hd, hf, hc]

theorem execTorgb_frame {s : State} (hd : s.dimsOK = true) (hf : s.frameOK = false) :
    execTorgb s = .next (s.raise .invalidFrameBuffer) := by simp [execTorgb, hd, hf]

/-- After the error sequence the ends of the calls read the same: STATUS ERROR and the code. -/
theorem reportsError_of_raise {p : Pseudo} {s : State} (u : State) (e : ErrCode)
    (hrun : p.run s = readFrame (u.raise e) ∨ p.run s = readRgb (u.raise e)) (hscript : u.script = s.script)
    (hret : u.returned = s.returned) : ReportsError p s (errNumber e) := by
  rw [readFrame_error rfl, readRgb_error rfl, or_self] at hrun
  refine ⟨_, hrun, hscript, ?_⟩
  rw [errNumber_eq, ← hret]
  rfl

section
variable {f : Frame} {s : State} (hf : f.Fits s.cfg) (e : ErrCode)
include hf

theorem callCompress_reports
    (h : execCompress (s.called f .compress s.cropw s.croph) = .next ((s.called f .compress s.cropw s.croph).raise e)) :
    ReportsError (.compress f) s (errNumber e) :=
  reportsError_of_raise (s.called f .compress s.cropw s.croph) e
    (.inl (by rw [callCompress_eq hf, h, andThen_next])) rfl rfl

theorem callCrop_reports {cw ch : Nat} (hcw : cw < 2 ^ s.cfg.n) (hch : ch < 2 ^ s.cfg.n)
    (h : execCrop (s.called f .crop cw ch) = .next ((s.called f .crop cw ch).raise e)) :
    ReportsError (.crop f cw ch) s (errNumber e) :=
  reportsError_of_raise (s.called f .crop cw ch) e (.inl (by rw [callCrop_eq hf hcw hch, h, andThen_next])) rfl rfl

theorem callTorgb_reports
    (h : execTorgb (s.called f .torgb s.cropw s.croph) = .next ((s.called f .torgb s.cropw s.croph).raise e)) :
    ReportsError (.toRGB f) s (errNumber e) :=
  reportsError_of_raise (s.called f .torgb s.cropw s.croph) e
    (.inr (by rw [callTorgb_eq hf, h, andThen_next])) rfl rfl

end

/-- Settles O46: each check of 60_exceptions.md R216, read on the frame value that the call has just loaded. -/
theorem callsReportTheFirstError : Obligations.CallsReportTheFirstError := by
  intro f s cw ch hf hcw hch
  have hu := s.called_holdsFrame f
  refine ⟨fun hodd => ?_, fun heven h3 => ?_, fun heven hp => ?_, fun heven hp hc => ?_⟩
  · have hd : ∀ i cw ch, (s.called f i cw ch).dimsOK = false := fun i cw ch =>
      Bool.eq_false_iff.2 (mt (hu i cw ch).dimsOK_iff.1 hodd)
    exact ⟨callCompress_reports hf .invalidDimensions (exec_of_dimsOK_eq_false (hd ..) .compress),
      callCrop_reports hf .invalidDimensions hcw hch (exec_of_dimsOK_eq_false (hd ..) .crop),
      callTorgb_reports hf .invalidDimensions (exec_of_dimsOK_eq_false (hd ..) .torgb)⟩
  · have h3 := Bool.eq_false_iff.2 (mt (hu .compress s.cropw s.croph).dims3OK_iff.1 h3)
    exact callCompress_reports hf .invalidDimensions (execCompress_dims3 ((hu ..).dimsOK_iff.2 heven) h3)
  · have hfr : ∀ i cw ch, (s.called f i cw ch).frameOK = false := fun i cw ch =>
      Bool.eq_false_iff.2 (mt (hu i cw ch).frameOK_iff.1 hp)
    refine ⟨fun hw hh => callCompress_reports hf .invalidFrameBuffer ?_,
      callCrop_reports hf .invalidFrameBuffer hcw hch ?_, callTorgb_reports hf .invalidFrameBuffer ?_⟩
    · exact execCompress_frame ((hu ..).dimsOK_iff.2 heven) ((hu ..).dims3OK_iff.2 ⟨hw, hh⟩) (hfr ..)
    · exact execCrop_frame ((hu ..).dimsOK_iff.2 heven) (hfr ..)
    · exact execTorgb_frame ((hu ..).dimsOK_iff.2 heven) (hfr ..)
  · have hc := Bool.eq_false_iff.2 (mt (hu .crop cw ch).cropOK_iff.1 hc)
    exact callCrop_reports hf .invalidCropParameters hcw hch
      (execCrop_amounts ((hu ..).dimsOK_iff.2 heven) ((hu ..).frameOK_iff.2 hp) hc)

end Sys2Proof.Machine
end

section
/-! The calls of the three commands on a conforming frame value (30_encoding.md R97): what the host reads back. -/

namespace Sys2Proof.Machine

theorem Frame.Conforming.one_le_n {c : Config} {f : Frame} (hf : f.Conforming c) : 1 ≤ c.n := by
  obtain ⟨⟨hw0, -, -, -⟩, -, hw, -⟩ := hf
  rcases Nat.eq_zero_or_pos c.n with hn | hn
  · rw [hn] at hw
    omega
  · exact hn

/-! ### The samples of the loaded frame value -/

section
variable {s : State} {f : Frame} (h : s.HoldsFrame f)
include h

theorem State.HoldsFrame.load_yin (hp : f.PlaneLengths) {x y : Nat} (hx : x < f.w) (hy : y < f.h) (site : Nat) :
    s.load .yin (yaddr x y s.width) site = f.y.getD (y * f.w + x) 0#8 := by
  rw [h.width]
  refine State.load_of_written (h.yin _ ?_)
  rw [hp.1, Nat.mul_comm f.w]
  exact address_lt hy hx

theorem State.HoldsFrame.load_uvin (he : f.EvenSides) (hp : f.PlaneLengths) {j cy : Nat} (hj : j < f.w)
    (hcy : cy < f.h / 2) (site : Nat) : s.load .uvin (uvByte j cy s.width) site = f.uv.getD (cy * f.w + j) 0#8 := by
  obtain ⟨-, -, -, hh⟩ := he
  rw [h.width]
  refine State.load_of_written (h.uvin _ ?_)
  rw [hp.2, ← half_rows hh]
  exact address_lt hcy hj

end

/-! ### The bytes of the output planes, by index -/

/-- Row and column of an index of a luma plane. -/
theorem luma_rowCol {w h a : Nat} (ha : a < w * h) : a / w < h ∧ a % w < w ∧ a / w * w + a % w = a := by
  have hw : 0 < w := Nat.pos_of_mul_pos_right (Nat.zero_lt_of_lt ha)
  exact ⟨Nat.div_lt_of_lt_mul ha, Nat.mod_lt _ hw, Nat.div_add_mod' a w⟩

/-- Row and byte column of an index of a chroma plane. -/
theorem chroma_rowCol {w h a : Nat} (hh : h % 2 = 0) (ha : a < w * h / 2) :
    a / w < h / 2 ∧ a % w < w ∧ a / w * w + a % w = a := by
  rw [← half_rows hh, Nat.mul_comm] at ha
  exact luma_rowCol ha

section
variable {s : State} {f : Frame} (h : s.HoldsFrame f) (he : f.EvenSides) (hp : f.PlaneLengths)
include h he hp

/-- 41_compress.md R142. -/
theorem State.HoldsFrame.read_compressed_yout (h3 : s.dims3OK = true) {w' h' a : Nat} (hw : s.compressWidth = w')
    (hh : s.compressHeight = h') (ha : a < w' * h') :
    Memory.read s.compressed.yout a =
      some (f.y.getD ((6 * (a / w' / 2) + a / w' % 2) * f.w + (6 * (a % w' / 2) + a % w' % 2)) 0#8) := by
  subst hw hh
  obtain ⟨hrow, hcol, hadd⟩ := luma_rowCol ha
  obtain ⟨hw, hh, -, -, hw2, hh2⟩ := State.compress_sides (h.dimsOK_iff.2 he) h3
  rw [h.width] at hw
  rw [h.height] at hh
  have hread := read_compressLuma (m := s.yout) hcol hrow
  rw [yaddr, hadd, h.load_yin hp (by simp only [keptIndex]; omega) (by simp only [keptIndex]; omega)] at hread
  exact hread

/-- 41_compress.md R143: the pairs are kept whole, one row in three. -/
theorem State.HoldsFrame.read_compressed_uvout (h3 : s.dims3OK = true) {w' h' a : Nat} (hw : s.compressWidth = w')
    (hh : s.compressHeight = h') (ha : a < w' * h' / 2) :
    Memory.read s.compressed.uvout a =
      some (f.uv.getD (3 * (a / w') * f.w + (6 * (a % w' / 2) + a % w' % 2)) 0#8) := by
  subst hw hh
  obtain ⟨hw, hh, -, -, hw2, hh2⟩ := State.compress_sides (h.dimsOK_iff.2 he) h3
  obtain ⟨hrow, hcol, hadd⟩ := chroma_rowCol hh2 ha
  rw [h.width] at hw
  rw [h.height] at hh
  obtain ⟨hu, hv⟩ := read_compressChroma (m := s.uvout) hw2 (cx := a % s.compressWidth / 2) (by omega) hrow
  rw [h.load_uvin he hp (by omega) (by omega)] at hu hv
  rcases Nat.mod_two_eq_zero_or_one (a % s.compressWidth) with hpar | hpar
  · rw [hpar]
    rw [uaddr, uvByte, show 2 * (a % s.compressWidth / 2) = a % s.compressWidth by omega, hadd] at hu
    exact hu
  · rw [hpar]
    rw [vaddr, uvByte, show 2 * (a % s.compressWidth / 2) + 1 = a % s.compressWidth by omega, hadd] at hv
    exact hv

/-- 42_crop.md R163. -/
theorem State.HoldsFrame.read_cropped_yout (hc : s.cropOK = true) {w' h' a : Nat} (hw : s.cropWidth = w')
    (hh : s.cropHeight = h') (ha : a < w' * h') :
    Memory.read s.cropped.yout a =
      some (f.y.getD ((s.croph / 2 + a / w') * f.w + (s.cropw / 2 + a % w')) 0#8) := by
  subst hw hh
  obtain ⟨hrow, hcol, hadd⟩ := luma_rowCol ha
  obtain ⟨hw, hh, -, -, -, -⟩ := State.crop_sides (h.dimsOK_iff.2 he) hc
  rw [h.width] at hw
  rw [h.height] at hh
  have hread := read_cropLuma (m := s.yout) hcol hrow
  rw [yaddr, hadd, h.load_yin hp (by omega) (by omega)] at hread
  exact hread

/-- 42_crop.md R164, R165. -/
theorem State.HoldsFrame.read_cropped_uvout (hc : s.cropOK = true) {w' h' a : Nat} (hw : s.cropWidth = w')
    (hh : s.cropHeight = h') (ha : a < w' * h' / 2) :
    Memory.read s.cropped.uvout a =
      some (f.uv.getD ((s.croph / 4 + a / w') * f.w + (s.cropw / 2 + a % w')) 0#8) := by
  subst hw hh
  have hd := h.dimsOK_iff.2 he
  obtain ⟨hw, hh, -, -, -, hh2⟩ := State.crop_sides hd hc
  obtain ⟨hrow, hcol, hadd⟩ := chroma_rowCol hh2 ha
  rw [h.width] at hw
  rw [h.height] at hh
  have hread := read_cropChroma (m := s.uvout) hcol (by rwa [State.crop_chromaRows hd hc])
  rw [uvByte, hadd, h.load_uvin he hp (by omega) (by simp only [State.cropChromaTop]; omega)] at hread
  exact hread

end

/-- Byte `a` of the RGB sequence of a frame value: channel `a mod 3` of pixel `a div 3` (43_torgb.md R180, R182). -/
def Frame.rgbByte (f : Frame) (a : Nat) : Byte :=
  let x := a / 3 % f.w
  let row := a / 3 / f.w
  let y := f.y.getD (row * f.w + x) 0#8
  let u := f.uv.getD (row / 2 * f.w + 2 * (x / 2)) 0#8
  let v := f.uv.getD (row / 2 * f.w + 2 * (x / 2) + 1) 0#8
  if a % 3 = 0 then channel (redNum y v) else if a % 3 = 1 then channel (greenNum y u v) else channel (blueNum y u)

theorem State.HoldsFrame.read_converted_rgbout {s : State} {f : Frame} (h : s.HoldsFrame f) (he : f.EvenSides)
    (hp : f.PlaneLengths) {a : Nat} (ha : a < 3 * f.w * f.h) :
    Memory.read s.converted.rgbout a = some (f.rgbByte a) := by
  obtain ⟨-, -, hw2, hh2⟩ := id he
  obtain ⟨hrow, hcol, hadd⟩ : a / 3 / f.w < f.h ∧ a / 3 % f.w < f.w ∧ a / 3 / f.w * f.w + a / 3 % f.w = a / 3 :=
    luma_rowCol (Nat.div_lt_of_lt_mul (by rwa [← Nat.mul_assoc]))
  obtain ⟨hr, hg, hb⟩ := read_torgb (m := s.rgbout) (by rwa [h.width]) (by rwa [h.height])
    (h.load_yin hp hcol hrow _) (h.load_uvin he hp (j := 2 * (a / 3 % f.w / 2)) (by omega) (by omega) _)
    (h.load_uvin he hp (j := 2 * (a / 3 % f.w / 2) + 1) (cy := a / 3 / f.w / 2) (by omega) (by omega) _)
  have haddr : ∀ c, a % 3 = c → rgbAddr (a / 3 % f.w) (a / 3 / f.w) c s.width = a := by
    rintro _ rfl
    rw [rgbAddr, h.width, hadd, Nat.div_add_mod]
  rw [State.converted_rgbout, Frame.rgbByte]
  obtain hc | hc | hc : a % 3 = 0 ∨ a % 3 = 1 ∨ a % 3 = 2 := by omega
  · rw [haddr 0 hc] at hr
    rw [if_pos hc]
    exact hr
  · rw [haddr 1 hc] at hg
    rw [if_neg (by omega), if_pos hc]
    exact hg
  · rw [haddr 2 hc] at hb
    rw [if_neg (by omega), if_neg (by omega)]
    exact hb

/-! ### What the host reads back -/

/-- `READFRAME` of an output frame with sides `w'` and `h'` that the buffers can hold. -/
theorem readFrame_output {s : State} {w' h' : Nat} {vy vu : Nat → Byte} (hs : s.status = .done) (how : s.owidth = w')
    (hoh : s.oheight = h') (hoy : s.oylen = w' * h') (hou : s.ouvlen = w' * h' / 2) (hn : 1 ≤ s.cfg.n)
    (hw : w' < 2 ^ s.cfg.n) (hh : h' < 2 ^ s.cfg.n) (ry : ∀ a < w' * h', Memory.read s.yout a = some (vy a))
    (ru : ∀ a < w' * h' / 2, Memory.read s.uvout a = some (vu a)) :
    ∃ t : State, readFrame s = .next t ∧ t.status = .done ∧ t.script = s.script ∧
      t.returned = s.returned ++
        (([.reg 1 1, .reg 9 w', .reg 10 h', .reg 11 (w' * h'), .reg 12 (w' * h' / 2)] : List HostResult) ++
        (List.range (w' * h')).map (fun a => HostResult.byte .yout a (vy a)) ++
        (List.range (w' * h' / 2)).map (fun a => HostResult.byte .uvout a (vu a))) := by
  obtain ⟨hy, hu, -, -, -⟩ := plane_bounds hn hw hh
  rw [← hoy] at hy ry
  rw [← hou] at hu ru
  refine ⟨_, readFrame_done hs hy.le hu.le ry ru, hs, rfl, ?_⟩
  rw [← hou, ← hoy, ← how, ← hoh]

/-- Settles O43: COMPRESS completes on the loaded frame, and the host reads the retained bytes back. -/
theorem callOfCompressReturnsTheDecimatedFrame : Obligations.CallOfCompressReturnsTheDecimatedFrame := by
  intro f s w' h' hf hw hh
  obtain ⟨he, hp, hwn, hhn⟩ := id hf
  have hu := s.called_holdsFrame f .compress s.cropw s.croph
  have h3 := hu.dims3OK_iff.2 ⟨by omega, by omega⟩
  have hw' : (s.called f .compress s.cropw s.croph).compressWidth = w' := Nat.div_eq_of_eq_mul_right (by decide) hw
  have hh' : (s.called f .compress s.cropw s.croph).compressHeight = h' := Nat.div_eq_of_eq_mul_right (by decide) hh
  rw [callCompress_eq hf.fits, execCompress_done (hu.dimsOK_iff.2 he) h3 (hu.frameOK_iff.2 hp), andThen_next]
  exact readFrame_output rfl hw' hh' (by rw [← hw', ← hh']; rfl) (by rw [← hw', ← hh']; rfl) hf.one_le_n
    (lt_of_le_of_lt (by omega) hwn) (lt_of_le_of_lt (by omega) hhn)
    (fun a ha => hu.read_compressed_yout he hp h3 hw' hh' ha) (fun a ha => hu.read_compressed_uvout he hp h3 hw' hh' ha)

/-- Settles O44: CROP completes on the loaded frame, and the host reads the window back. -/
theorem callOfCropReturnsTheWindow : Obligations.CallOfCropReturnsTheWindow := by
  intro f s cw ch w' h' hf hw0 hh0 hw hh hcw hch
  obtain ⟨he, hp, hwn, hhn⟩ := id hf
  have hu := s.called_holdsFrame f .crop cw ch
  have hc := hu.cropOK_iff.2 ⟨show cw < f.w by omega, show ch < f.h by omega, hcw, hch⟩
  have hw' : (s.called f .crop cw ch).cropWidth = w' := Nat.sub_eq_of_eq_add hw
  have hh' : (s.called f .crop cw ch).cropHeight = h' := Nat.sub_eq_of_eq_add hh
  rw [callCrop_eq hf.fits (by omega) (by omega), execCrop_done (hu.dimsOK_iff.2 he) (hu.frameOK_iff.2 hp) hc,
    andThen_next]
  exact readFrame_output rfl hw' hh' (by rw [← hw', ← hh']; rfl) (by rw [← hw', ← hh']; rfl) hf.one_le_n
    (lt_of_le_of_lt (by omega) hwn) (lt_of_le_of_lt (by omega) hhn)
    (fun a ha => hu.read_cropped_yout he hp hc hw' hh' ha) (fun a ha => hu.read_cropped_uvout he hp hc hw' hh' ha)

/-- Settles O45: TORGB completes on the loaded frame, and the host reads the converted channels back. -/
theorem callOfTorgbReturnsTheConvertedPixels : Obligations.CallOfTorgbReturnsTheConvertedPixels := by
  intro f s hf
  obtain ⟨he, hp, hwn, hhn⟩ := id hf
  have hu := s.called_holdsFrame f .torgb s.cropw s.croph
  obtain ⟨-, -, -, hcap, -⟩ := plane_bounds hf.one_le_n hwn hhn
  rw [callTorgb_eq hf.fits, execTorgb_done (hu.dimsOK_iff.2 he) (hu.frameOK_iff.2 hp), andThen_next]
  exact ⟨_, readRgb_done (v := f.rgbByte) rfl hcap.le (fun a ha => hu.read_converted_rgbout he hp ha), rfl, rfl, rfl⟩

end Sys2Proof.Machine
end

section
/-! The pseudo-instruction `CHAIN` (30_encoding.md R97; 70_reset_and_hazards.md R251). -/

namespace Sys2Proof.Machine

/-- A written plane fits its buffer: the last byte of the valid extent is listed. -/
theorem State.BuffersFit.extent_le {s : State} (h : s.BuffersFit) {b : Buffer} {n : Nat}
    (hw : ∀ a < n, ∃ v, Memory.read (s.buffer b) a = some v) : n ≤ b.capacity s.cfg := by
  rcases Nat.eq_zero_or_pos n with rfl | hn
  · exact Nat.zero_le _
  · obtain ⟨v, hv⟩ := hw (n - 1) (by omega)
    have hlt : n - 1 < b.capacity s.cfg := (h b).2 _ (Memory.mem_of_read hv)
    omega

/-- The output frame as a frame value. -/
def State.outputFrame (s : State) : Frame where
  y := (List.range s.oylen).map fun a => (Memory.read s.yout a).getD 0#8
  uv := (List.range s.ouvlen).map fun a => (Memory.read s.uvout a).getD 0#8
  w := s.owidth
  h := s.oheight

@[simp] theorem State.outputFrame_y_length (s : State) : s.outputFrame.y.length = s.oylen := by
  simp [State.outputFrame]

@[simp] theorem State.outputFrame_uv_length (s : State) : s.outputFrame.uv.length = s.ouvlen := by
  simp [State.outputFrame]

theorem Memory.read_eq_some_getD {m : Memory} {a : Nat} (h : ∃ v, Memory.read m a = some v) :
    Memory.read m a = some ((Memory.read m a).getD 0#8) := by
  obtain ⟨v, hv⟩ := h
  rw [hv, Option.getD_some]

section
variable {s : State} (hs : s.ExtentsWritten)
include hs

theorem State.ExtentsWritten.read_yout {a : Nat} (ha : a < s.oylen) :
    Memory.read s.yout a = some (s.outputFrame.y.getD a 0#8) := by
  have hget : s.outputFrame.y.getD a 0#8 = (Memory.read s.yout a).getD 0#8 := by simp [State.outputFrame, ha]
  rw [hget]
  exact Memory.read_eq_some_getD (hs.1 a ha)

theorem State.ExtentsWritten.read_uvout {a : Nat} (ha : a < s.ouvlen) :
    Memory.read s.uvout a = some (s.outputFrame.uv.getD a 0#8) := by
  have hget : s.outputFrame.uv.getD a 0#8 = (Memory.read s.uvout a).getD 0#8 := by simp [State.outputFrame, ha]
  rw [hget]
  exact Memory.read_eq_some_getD (hs.2.1 a ha)

end

/-- The state after the host has read the output frame: only what has been read and the draws are new. -/
def State.outputRead (s : State) : State :=
  { s with
    returned := s.returned ++
      (List.range s.oylen).map (fun a => .byte .yout a (s.outputFrame.y.getD a 0#8)) ++
      (List.range s.ouvlen).map (fun a => .byte .uvout a (s.outputFrame.uv.getD a 0#8)) ++
      [.reg 9 s.owidth, .reg 10 s.oheight]
    draws := s.draws + s.oylen + s.ouvlen }

theorem perform_readOutput {s : State} (hs : s.Inv) :
    perform [.rdm .yout 0 s.oylen, .rdm .uvout 0 s.ouvlen, .rd .owidth, .rd .oheight] s = .next s.outputRead := by
  have hw := hs.extentsWritten
  have hy := hs.buffersFit.extent_le (b := .yout) hw.1
  have hu := hs.buffersFit.extent_le (b := .uvout) hw.2.1
  rw [perform_cons, perform_rdm_written (fun a => s.outputFrame.y.getD a 0#8) hy
      (fun a ha => ⟨decide_eq_true ha, hw.read_yout ha⟩), andThen_next,
    perform_cons, perform_rdm_written (fun a => s.outputFrame.uv.getD a 0#8) (by exact hu)
      (by exact fun a ha => ⟨decide_eq_true ha, hw.read_uvout ha⟩), andThen_next]
  exact perform_rds [.owidth, .oheight] _

/-- A list is what its indices give. -/
theorem map_getD_range {l : List Byte} {n : Nat} (hn : l.length = n) : (List.range n).map (l.getD · 0#8) = l := by
  subst hn
  refine List.ext_getElem (by simp) fun i hi _ => ?_
  rw [List.getElem_map, List.getElem_range, List.getD_eq_getElem]

theorem State.outputRead_lastBytes_yout (s : State) : s.outputRead.lastBytes .yout s.oylen = s.outputFrame.y := by
  refine (State.lastBytes_eq (List.append_assoc ..) fun a x hx => ?_).trans (map_getD_range s.outputFrame_y_length)
  rcases List.mem_append.1 hx with hx | hx
  · obtain ⟨i, -, rfl⟩ := List.mem_map.1 hx
    simp [HostResult.byteValue]
  · obtain rfl | rfl : x = .reg 9 s.owidth ∨ x = .reg 10 s.oheight := by simpa using hx
    · rfl
    · rfl

theorem State.outputRead_lastBytes_uvout (s : State) : s.outputRead.lastBytes .uvout s.ouvlen = s.outputFrame.uv :=
  (State.lastBytes_eq rfl (by simp [HostResult.byteValue])).trans (map_getD_range s.outputFrame_uv_length)

theorem State.outputRead_lastRead_owidth (s : State) : s.outputRead.lastRead .owidth = s.owidth :=
  State.lastRead_append rfl (by simp [HostResult.regValue, Reg.num])

theorem State.outputRead_lastRead_oheight (s : State) : s.outputRead.lastRead .oheight = s.oheight :=
  State.lastRead_append (List.append_cons ..) (List.forall_mem_nil _)

/-- What the host loads is the output frame that it has read. -/
theorem chain_eq {s : State} (hs : s.Inv) : chain s = perform (loadFrame s.outputFrame) s.outputRead := by
  rw [chain, perform_readOutput hs, andThen_next, s.outputRead_lastBytes_yout, s.outputRead_lastBytes_uvout,
    s.outputRead_lastRead_owidth, s.outputRead_lastRead_oheight]
  rfl

/-- The output frame of a legal state can be loaded. -/
theorem State.Inv.outputFrame_fits {s : State} (hs : s.Inv) : s.outputFrame.Fits s.outputRead.cfg := by
  rw [Frame.Fits, s.outputFrame_y_length, s.outputFrame_uv_length]
  exact ⟨hs.regsFit .owidth, hs.regsFit .oheight, hs.regsFit .oylen, hs.regsFit .ouvlen,
    hs.buffersFit.extent_le (b := .uvout) hs.extentsWritten.2.1⟩

/-- Settles O47: the frame that `CHAIN` loads is the output frame (`chain_eq`), which fits since the state is legal. -/
theorem chainLoadsTheOutputFrame : Obligations.ChainLoadsTheOutputFrame := by
  intro s hs
  have hw := hs.extentsWritten
  refine ⟨_, (chain_eq hs).trans (perform_loadFrame hs.outputFrame_fits), rfl, rfl, rfl, rfl,
    s.outputFrame_y_length, s.outputFrame_uv_length, fun a ha => ?_, fun a ha => ?_, rfl, rfl, rfl, rfl, rfl, rfl⟩
  · rw [hw.read_yout ha, State.read_loaded_yin _ _ (by rwa [s.outputFrame_y_length])]
  · rw [hw.read_uvout ha, State.read_loaded_uvin _ _ (by rwa [s.outputFrame_uv_length])]

end Sys2Proof.Machine
end

section
/-! The source addresses of an accepted frame lie inside its planes (40_plane_indexer.md R119). -/

namespace Sys2Proof.Machine

/-- The luma plane holds every pixel of the frame. -/
theorem State.yaddr_lt_ylen {s : State} (hf : s.frameOK = true) {x y : Nat} (hx : x < s.width) (hy : y < s.height) :
    yaddr x y s.width < s.ylen := by
  rw [(s.frameOK_iff.1 hf).1, Nat.mul_comm]
  exact address_lt hy hx

/-- The chroma plane holds `width` bytes for each two rows of the frame. -/
theorem State.uvByte_lt_uvlen {s : State} (hd : s.dimsOK = true) (hf : s.frameOK = true) {j cy : Nat} (hj : j < s.width)
    (hcy : cy < s.height / 2) : uvByte j cy s.width < s.uvlen := by
  obtain ⟨-, -, -, hh⟩ := s.dimsOK_iff.1 hd
  rw [(s.frameOK_iff.1 hf).2, ← half_rows hh]
  exact address_lt hcy hj

/-- Settles O18: each command's source columns and rows lie inside the frame, hence their addresses inside the planes
(`State.yaddr_lt_ylen`, `State.uvByte_lt_uvlen`). -/
theorem sourceAddressesLieInsideThePlanes : Obligations.SourceAddressesLieInsideThePlanes := by
  intro s hd hf
  obtain ⟨-, -, hw2, hh2⟩ := s.dimsOK_iff.1 hd
  refine ⟨fun h3 => ⟨fun ox oy hox hoy => ?compressLuma, fun cx cy hcx hcy => ?compressChroma⟩,
    fun hc => ⟨fun ox oy hox hoy => ?cropLuma, fun b cy hb hcy => ?cropChroma⟩,
    fun x y hx hy => ⟨State.yaddr_lt_ylen hf hx hy, ?torgbChroma⟩⟩
  case compressLuma =>
    obtain ⟨hw3, hh3⟩ := s.dims3OK_iff.1 h3
    exact State.yaddr_lt_ylen hf (keptIndex_lt hw2 hw3 hox) (keptIndex_lt hh2 hh3 hoy)
  case cropLuma =>
    obtain ⟨hcw, hch, -, -⟩ := s.cropOK_iff.1 hc
    exact State.yaddr_lt_ylen hf (by omega) (by omega)
  case cropChroma =>
    obtain ⟨hcw, -, -, -⟩ := s.cropOK_iff.1 hc
    exact State.uvByte_lt_uvlen hd hf (by omega) (by omega)
  case compressChroma | torgbChroma => exact State.uvByte_lt_uvlen hd hf (by omega) (by omega)

end Sys2Proof.Machine
end

section
/-! COMPRESS keeps two columns and two rows of every six, and one chroma row of every three (41_compress.md R140 to R147). -/

namespace Sys2Proof.Machine

/-! ### Copied bytes -/

/-- A stored load is a copy of the byte it loads. -/
theorem copiedTo_of_read_load {s : State} {b : Buffer} {src site dst : Nat} {m' : Memory}
    (h : Memory.read m' dst = some (s.load b src site)) : CopiedTo (s.buffer b) src m' dst :=
  ⟨⟨_, h⟩, fun _ hv => h.trans (congrArg some (State.load_of_written hv))⟩

/-- Two copies of a byte on which their sources agree are alike. -/
theorem CopiedTo.read_eq {m₁ m₂ m₁' m₂' : Memory} {src dst : Nat} (h₁ : CopiedTo m₁ src m₁' dst)
    (h₂ : CopiedTo m₂ src m₂' dst) (h : AgreeWritten m₁ m₂ src) : Memory.read m₁' dst = Memory.read m₂' dst := by
  obtain ⟨hread, v, hv⟩ := h
  rw [h₁.2 v hv, h₂.2 v (hread ▸ hv)]

/-! ### The retained indices (41_compress.md R142) -/

theorem keptIndex_mod_six_lt (k : Nat) : keptIndex k % 6 < 2 := by
  simp only [keptIndex]; omega

theorem keptIndex_mod_two (k : Nat) : keptIndex k % 2 = k % 2 := by
  simp only [keptIndex]; omega

theorem keptIndex_two_mul (k : Nat) : keptIndex (2 * k) = 6 * k := by
  simp only [keptIndex]; omega

theorem keptIndex_two_mul_add_one (k : Nat) : keptIndex (2 * k + 1) = 6 * k + 1 := by
  simp only [keptIndex]; omega

/-- Of the `n`-th six indices the first two are retained. -/
theorem filter_group_of_six (n : Nat) :
    ((List.range 6).map (6 * n + ·)).filter (fun c => c % 6 < 2) = [6 * n, 6 * n + 1] := by
  rw [List.filter_map]
  simp only [Function.comp_def, Nat.mul_add_mod]
  rfl

/-- The retained indices of `n` groups of six, group by group. -/
theorem map_keptIndex_range (n : Nat) :
    (List.range (2 * n)).map keptIndex = (List.range (6 * n)).filter (fun c => c % 6 < 2) := by
  induction n with
  | zero => rfl
  | succ n ih =>
    rw [Nat.mul_succ 6, List.range_add, List.filter_append, filter_group_of_six, ← ih, Nat.mul_succ, List.range_succ,
      List.range_succ]
    simp [keptIndex_two_mul, keptIndex_two_mul_add_one]

/-- Settles O19, by induction on the number of groups of six (`map_keptIndex_range`). -/
theorem keptIndicesAreTwoOfEverySix : Obligations.KeptIndicesAreTwoOfEverySix := by
  intro w hw
  obtain ⟨n, rfl⟩ := Nat.dvd_of_mod_eq_zero hw
  rw [show 6 * n / 3 = 2 * n by omega]
  exact map_keptIndex_range n

/-! ### Which input byte each output byte is -/

/-- 41_compress.md R142. -/
theorem State.compressed_copies_yin {s : State} {ox oy : Nat} (hx : ox < s.compressWidth) (hy : oy < s.compressHeight) :
    CopiedTo s.yin (yaddr (keptIndex ox) (keptIndex oy) s.width) s.compressed.yout (yaddr ox oy s.compressWidth) :=
  copiedTo_of_read_load (b := .yin) (read_compressLuma hx hy)

/-- Every index of the output luma plane is the address of an output row and column. -/
theorem State.exists_yaddr_of_lt_oylen {s : State} {a : Nat} (ha : a < s.compressed.oylen) :
    ∃ oy < s.compressHeight, ∃ ox < s.compressWidth, a = yaddr ox oy s.compressWidth := by
  rw [s.compressed_oylen, Nat.mul_comm] at ha
  exact exists_address ha

section
variable {s : State} (hd : s.dimsOK = true) (h3 : s.dims3OK = true)
include hd h3

/-- 41_compress.md R143, by byte column: the retained columns are those of the luma plane, since pairs are kept whole. -/
theorem State.compressed_copies_uvin {j cy : Nat} (hj : j < s.compressWidth) (hcy : cy < s.compressHeight / 2) :
    CopiedTo s.uvin (uvByte (keptIndex j) (3 * cy) s.width) s.compressed.uvout (uvByte j cy s.compressWidth) := by
  obtain ⟨-, -, -, -, hw2, -⟩ := State.compress_sides hd h3
  obtain ⟨hu, hv⟩ := read_compressChroma (m := s.uvout) hw2 (cx := j / 2) (by omega) hcy
  obtain ⟨cx, rfl | rfl⟩ := Nat.even_or_odd' j
  · rw [keptIndex_two_mul]
    rw [Nat.mul_div_cancel_left cx (by decide)] at hu
    exact copiedTo_of_read_load (b := .uvin) hu
  · rw [keptIndex_two_mul_add_one]
    rw [show (2 * cx + 1) / 2 = cx by omega] at hv
    exact copiedTo_of_read_load (b := .uvin) hv

/-- Every index of the output chroma plane is the address of an output chroma row and a byte column. -/
theorem State.exists_uvByte_of_lt_ouvlen {a : Nat} (ha : a < s.compressed.ouvlen) :
    ∃ cy < s.compressHeight / 2, ∃ j < s.compressWidth, a = uvByte j cy s.compressWidth := by
  obtain ⟨-, -, -, -, -, hh2⟩ := State.compress_sides hd h3
  rw [s.compressed_ouvlen, ← half_rows hh2] at ha
  exact exists_address ha

/-- The retained columns lie inside the frame. -/
theorem State.keptIndex_lt_width {k : Nat} (hk : k < s.compressWidth) : keptIndex k < s.width := by
  obtain ⟨-, -, hw2, -⟩ := s.dimsOK_iff.1 hd
  exact keptIndex_lt hw2 (s.dims3OK_iff.1 h3).1 hk

/-- The retained rows lie inside the frame. -/
theorem State.keptIndex_lt_height {k : Nat} (hk : k < s.compressHeight) : keptIndex k < s.height := by
  obtain ⟨-, -, -, hh2⟩ := s.dimsOK_iff.1 hd
  exact keptIndex_lt hh2 (s.dims3OK_iff.1 h3).2 hk

/-- The retained chroma rows lie inside the frame. -/
theorem State.retainedChromaRow_lt {cy : Nat} (hcy : cy < s.compressHeight / 2) : 3 * cy < s.height / 2 := by
  obtain ⟨-, hh, -, -, -, -⟩ := State.compress_sides hd h3
  omega

end

/-- Settles O5: the luma bytes are `State.compressed_copies_yin`, the chroma bytes `State.compressed_copies_uvin` at the byte
columns `2 * cx` and `2 * cx + 1`. -/
theorem compressCompletesWithTheDecimatedFrame : Obligations.CompressCompletesWithTheDecimatedFrame := by
  intro s hw0 hh0 hw2 hh2 hw3 hh3 hy huv
  have hd := s.dimsOK_iff.2 ⟨hw0, hh0, hw2, hh2⟩
  have h3 := s.dims3OK_iff.2 ⟨hw3, hh3⟩
  obtain ⟨hw, hh, -, -, hw2', -⟩ := State.compress_sides hd h3
  refine ⟨s.compressed, execCompress_done hd h3 (s.frameOK_iff.2 ⟨hy, huv⟩), rfl, rfl, hw, hh, rfl, rfl, rfl,
    fun ox oy => State.compressed_copies_yin, fun cx cy hcx hcy => ?_⟩
  rw [s.compressed_owidth] at hcx
  rw [s.compressed_oheight] at hcy
  have hcopy {j : Nat} (hj : j < s.compressWidth) := State.compressed_copies_uvin hd h3 hj (cy := cy) (by omega)
  rw [Nat.add_assoc, Nat.add_assoc, ← keptIndex_two_mul_add_one, ← keptIndex_two_mul]
  exact ⟨hcopy hcx, hcopy (by omega)⟩

/-! ### Constant planes (41_compress.md R147) -/

/-- A byte of a plane of even width is at an even index exactly when its column is even. -/
theorem uvByte_mod_two {w : Nat} (hw : w % 2 = 0) (j cy : Nat) : uvByte j cy w % 2 = j % 2 := by
  have hrow : cy * w % 2 = 0 := by rw [Nat.mul_mod, hw, Nat.mul_zero, Nat.zero_mod]
  rw [uvByte]
  omega

/-- Settles O20: every output byte is a copy of an input byte, and a retained chroma byte keeps the parity of its column. -/
theorem compressKeepsConstantPlanes : Obligations.CompressKeepsConstantPlanes := by
  intro s k u v hd h3 hf hyin huvin
  refine ⟨s.compressed, execCompress_done hd h3 hf, rfl, fun a ha => ?luma, fun a ha => ?chroma⟩
  case luma =>
    obtain ⟨oy, hoy, ox, hox, rfl⟩ := State.exists_yaddr_of_lt_oylen ha
    have hsrc := State.yaddr_lt_ylen hf (State.keptIndex_lt_width hd h3 hox) (State.keptIndex_lt_height hd h3 hoy)
    exact (State.compressed_copies_yin hox hoy).2 k (hyin _ hsrc)
  case chroma =>
    obtain ⟨cy, hcy, j, hj, rfl⟩ := State.exists_uvByte_of_lt_ouvlen hd h3 ha
    have hsrc := State.uvByte_lt_uvlen hd hf (State.keptIndex_lt_width hd h3 hj) (State.retainedChromaRow_lt hd h3 hcy)
    have hcopy := (State.compressed_copies_uvin hd h3 hj hcy).2 _ (huvin _ hsrc)
    obtain ⟨-, -, hw2, -⟩ := s.dimsOK_iff.1 hd
    obtain ⟨-, -, -, -, hw2', -⟩ := State.compress_sides hd h3
    rwa [uvByte_mod_two hw2, keptIndex_mod_two, ← uvByte_mod_two hw2' j cy] at hcopy

/-! ### The skipped samples (41_compress.md R140) -/

/-- Two states agree on the operands of COMPRESS and on the bytes that it retains, all of them written. -/
structure State.AgreeOnRetained (s s' : State) : Prop where
  width : s.width = s'.width
  height : s.height = s'.height
  ylen : s.ylen = s'.ylen
  uvlen : s.uvlen = s'.uvlen
  yin : ∀ x y, x < s.width → y < s.height → x % 6 < 2 → y % 6 < 2 →
    AgreeWritten s.yin s'.yin (yaddr x y s.width)
  uvin : ∀ j cy, j < s.width → 2 * cy < s.height → j % 6 < 2 → cy % 3 = 0 →
    AgreeWritten s.uvin s'.uvin (uvByte j cy s.width)

section
variable {s s' : State} (h : s.AgreeOnRetained s')
include h

theorem State.AgreeOnRetained.checks :
    s'.dimsOK = s.dimsOK ∧ s'.dims3OK = s.dims3OK ∧ s'.frameOK = s.frameOK := by
  simp only [State.dimsOK, State.dims3OK, State.frameOK, h.width, h.height, h.ylen, h.uvlen, and_self]

theorem State.AgreeOnRetained.sides :
    s'.compressWidth = s.compressWidth ∧ s'.compressHeight = s.compressHeight := by
  simp only [State.compressWidth, State.compressHeight, h.width, h.height, and_self]

/-- The output bytes are copies of the same retained bytes in both states. -/
theorem State.AgreeOnRetained.compressed (hd : s.dimsOK = true) (h3 : s.dims3OK = true) :
    s.compressed.SameOutcome s'.compressed := by
  obtain ⟨hw, hh⟩ := h.sides
  obtain ⟨hd', h3', -⟩ := h.checks
  constructor
  case yout =>
    intro a ha
    obtain ⟨oy, hoy, ox, hox, rfl⟩ := State.exists_yaddr_of_lt_oylen ha
    have hcopy' := State.compressed_copies_yin (s := s') (hw ▸ hox) (hh ▸ hoy)
    rw [hw, ← h.width] at hcopy'
    exact (State.compressed_copies_yin hox hoy).read_eq hcopy' <|
      h.yin _ _ (State.keptIndex_lt_width hd h3 hox) (State.keptIndex_lt_height hd h3 hoy) (keptIndex_mod_six_lt ox)
        (keptIndex_mod_six_lt oy)
  case uvout =>
    intro a ha
    obtain ⟨cy, hcy, j, hj, rfl⟩ := State.exists_uvByte_of_lt_ouvlen hd h3 ha
    have hcopy' := State.compressed_copies_uvin (hd'.trans hd) (h3'.trans h3) (hw ▸ hj) (hh ▸ hcy)
    rw [hw, ← h.width] at hcopy'
    have hrow := State.retainedChromaRow_lt hd h3 hcy
    exact (State.compressed_copies_uvin hd h3 hj hcy).read_eq hcopy' <|
      h.uvin _ _ (State.keptIndex_lt_width hd h3 hj) (by omega) (keptIndex_mod_six_lt j) (Nat.mul_mod_right 3 cy)
  case rgbout => intro a ha; exact absurd ha a.not_lt_zero
  all_goals simp [hw, hh]

theorem State.AgreeOnRetained.execCompress_sameOutcome :
    ∃ t t', execCompress s = .next t ∧ execCompress s' = .next t' ∧ t.SameOutcome t' := by
  obtain ⟨hd', h3', hf'⟩ := h.checks
  rcases execCompress_cases s with ⟨hd, ht⟩ | ⟨hd, h3, ht⟩ | ⟨hd, h3, hf, ht⟩ | ⟨hd, h3, hf, ht⟩
  · exact ⟨_, _, ht, exec_of_dimsOK_eq_false (hd'.trans hd) .compress, s.raise_sameOutcome s' _⟩
  · exact ⟨_, _, ht, execCompress_dims3 (hd'.trans hd) (h3'.trans h3), s.raise_sameOutcome s' _⟩
  · exact ⟨_, _, ht, execCompress_frame (hd'.trans hd) (h3'.trans h3) (hf'.trans hf), s.raise_sameOutcome s' _⟩
  · exact ⟨_, _, ht, execCompress_done (hd'.trans hd) (h3'.trans h3) (hf'.trans hf), h.compressed hd h3⟩

end

/-- Settles O17: the retained bytes are all that COMPRESS copies (`State.AgreeOnRetained.execCompress_sameOutcome`). -/
theorem compressIgnoresSkippedSamples : Obligations.CompressIgnoresSkippedSamples := by
  intro s s' hw hh hy huv hyin huvin
  obtain ⟨t, t', ht, ht', h⟩ := State.AgreeOnRetained.execCompress_sameOutcome ⟨hw, hh, hy, huv, hyin, huvin⟩
  exact ⟨t, t', ht, ht', h.status, h.err, h.owidth, h.oheight, h.oylen, h.ouvlen, h.orgblen, h.yout, h.uvout⟩

end Sys2Proof.Machine
end

section
/-! CROP copies the centred window of both planes (42_crop.md R160 to R170). -/

namespace Sys2Proof.Machine

variable {s : State}

/-! ### The chroma rows of the window (42_crop.md R165) -/

theorem State.cropChromaBounds_of_four_mul {k : Nat} (hch : s.croph = 4 * k) :
    s.cropChromaTop = k ∧ s.cropChromaBottom = s.height / 2 - k := by
  simp only [State.cropChromaTop, State.cropChromaBottom, hch]
  omega

/-- An odd margin takes one chroma row more from the bottom than from the top. -/
theorem State.cropChromaBounds_of_four_mul_add_two {k : Nat} (hh : s.height % 2 = 0) (hch : s.croph = 4 * k + 2) :
    s.cropChromaTop = k ∧ s.cropChromaBottom = s.height / 2 - k - 1 := by
  simp only [State.cropChromaTop, State.cropChromaBottom, hch]
  omega

/-- Settles O21: the bounds for each phase of the margin, from which the number of rows follows. -/
theorem cropChromaWindowHasHalfTheRows : Obligations.CropChromaWindowHasHalfTheRows := by
  intro s hh hlt hch
  refine ⟨?_, fun k => ⟨State.cropChromaBounds_of_four_mul, State.cropChromaBounds_of_four_mul_add_two hh⟩⟩
  rw [State.cropHeight]
  obtain ⟨k, hk | hk⟩ : ∃ k, s.croph = 4 * k ∨ s.croph = 4 * k + 2 := ⟨s.croph / 4, by omega⟩
  · obtain ⟨htop, hbottom⟩ := State.cropChromaBounds_of_four_mul hk
    omega
  · obtain ⟨htop, hbottom⟩ := State.cropChromaBounds_of_four_mul_add_two hh hk
    omega

/-! ### Which input byte each output byte is -/

/-- 42_crop.md R163. -/
theorem State.cropped_copies_yin {ox oy : Nat} (hx : ox < s.cropWidth) (hy : oy < s.cropHeight) :
    CopiedTo s.yin (yaddr (s.cropw / 2 + ox) (s.croph / 2 + oy) s.width) s.cropped.yout (yaddr ox oy s.cropWidth) :=
  copiedTo_of_read_load (b := .yin) (read_cropLuma hx hy)

/-- 42_crop.md R164, R165. -/
theorem State.cropped_copies_uvin (hd : s.dimsOK = true) (hc : s.cropOK = true) {b cy : Nat} (hb : b < s.cropWidth)
    (hcy : 2 * cy < s.cropHeight) :
    CopiedTo s.uvin (uvByte (s.cropw / 2 + b) (s.croph / 4 + cy) s.width) s.cropped.uvout (uvByte b cy s.cropWidth) := by
  obtain ⟨-, -, -, -, -, hh2⟩ := State.crop_sides hd hc
  have hrow : cy < s.cropChromaBottom - s.cropChromaTop := by
    rw [State.crop_chromaRows hd hc]
    omega
  exact copiedTo_of_read_load (b := .uvin) (read_cropChroma hb hrow)

/-- Settles O6: the luma bytes are `State.cropped_copies_yin`, the chroma bytes `State.cropped_copies_uvin`. -/
theorem cropCompletesWithTheCentredWindow : Obligations.CropCompletesWithTheCentredWindow := by
  intro s hw0 hh0 hw2 hh2 hy huv hcw hch hcw2 hch2
  have hd := s.dimsOK_iff.2 ⟨hw0, hh0, hw2, hh2⟩
  have hc := s.cropOK_iff.2 ⟨hcw, hch, hcw2, hch2⟩
  obtain ⟨hw, hh, -⟩ := State.crop_sides hd hc
  exact ⟨s.cropped, execCrop_done hd (s.frameOK_iff.2 ⟨hy, huv⟩) hc, rfl, rfl, hw, hh, rfl, rfl, rfl,
    fun _ _ => State.cropped_copies_yin, fun _ _ => State.cropped_copies_uvin hd hc⟩

/-! ### The phase of the chroma pairs (42_crop.md R166) -/

/-- Settles O22: the byte columns `2 * cx` and `2 * cx + 1` of the output are copies of the input columns `cw/2` further right, which
start on a U for an even `cw/2` and on a V for an odd one. -/
theorem cropExchangesChromaOnOddMargins : Obligations.CropExchangesChromaOnOddMargins := by
  intro s hd hf hc
  refine ⟨s.cropped, execCrop_done hd hf hc, rfl, rfl, fun cx cy hcx hcy => ?_⟩
  rw [s.cropped_owidth] at hcx ⊢
  obtain ⟨-, -, -, -, hw2, -⟩ := State.crop_sides hd hc
  have hu := State.cropped_copies_uvin hd hc hcx hcy
  have hv := State.cropped_copies_uvin hd hc (b := 2 * cx + 1) (by omega) hcy
  refine ⟨fun heven => ⟨by omega, ?_, ?_⟩, fun hodd => ⟨?_, ?_⟩⟩
  · rwa [show s.cropw / 2 + 2 * cx = 2 * (s.cropw / 4 + cx) by omega] at hu
  · rwa [show s.cropw / 2 + (2 * cx + 1) = 2 * (s.cropw / 4 + cx) + 1 by omega] at hv
  · rwa [show s.cropw / 2 + 2 * cx = 2 * ((s.cropw / 2 - 1) / 2 + cx) + 1 by omega] at hu
  · rwa [show s.cropw / 2 + (2 * cx + 1) = 2 * ((s.cropw / 2 - 1) / 2 + cx + 1) by omega] at hv

/-! ### The centre, and a crop by nothing (42_crop.md R169) -/

/-- The window has its centre at the centre of the frame. -/
theorem State.cropped_copies_centre (hd : s.dimsOK = true) (hc : s.cropOK = true) :
    CopiedTo s.yin (yaddr (s.width / 2) (s.height / 2) s.width) s.cropped.yout
      (yaddr (s.cropWidth / 2) (s.cropHeight / 2) s.cropWidth) := by
  obtain ⟨hw, hh, hw0, hh0, hw2, hh2⟩ := State.crop_sides hd hc
  have hcopy := s.cropped_copies_yin (Nat.div_lt_self hw0 Nat.one_lt_two) (Nat.div_lt_self hh0 Nat.one_lt_two)
  rwa [show s.cropw / 2 + s.cropWidth / 2 = s.width / 2 by omega,
    show s.croph / 2 + s.cropHeight / 2 = s.height / 2 by omega] at hcopy

section
variable (hf : s.frameOK = true) (hcw : s.cropw = 0) (hch : s.croph = 0)

include hcw in
theorem State.cropWidth_of_cropw_eq_zero : s.cropWidth = s.width := by rw [State.cropWidth, hcw, Nat.sub_zero]

include hch in
theorem State.cropHeight_of_croph_eq_zero : s.cropHeight = s.height := by rw [State.cropHeight, hch, Nat.sub_zero]

include hf hcw hch

theorem State.cropped_copies_yin_of_no_crop {a : Nat} (ha : a < s.ylen) : CopiedTo s.yin a s.cropped.yout a := by
  have hw := State.cropWidth_of_cropw_eq_zero hcw
  have hh := State.cropHeight_of_croph_eq_zero hch
  rw [(s.frameOK_iff.1 hf).1, Nat.mul_comm] at ha
  obtain ⟨y, hy, x, hx, rfl⟩ := exists_address ha
  have hcopy := s.cropped_copies_yin (hw.symm ▸ hx) (hh.symm ▸ hy)
  rwa [hw, hcw, hch, Nat.zero_div, Nat.zero_add, Nat.zero_add] at hcopy

theorem State.cropped_copies_uvin_of_no_crop (hd : s.dimsOK = true) (hc : s.cropOK = true) {a : Nat} (ha : a < s.uvlen) :
    CopiedTo s.uvin a s.cropped.uvout a := by
  have hw := State.cropWidth_of_cropw_eq_zero hcw
  have hh := State.cropHeight_of_croph_eq_zero hch
  obtain ⟨-, -, -, hh2⟩ := s.dimsOK_iff.1 hd
  rw [(s.frameOK_iff.1 hf).2, ← half_rows hh2] at ha
  obtain ⟨cy, hcy, j, hj, rfl⟩ := exists_address ha
  have hcopy := State.cropped_copies_uvin hd hc (hw.symm ▸ hj) (cy := cy) (by omega)
  simp only [hw, hcw, hch, Nat.zero_div, Nat.zero_add] at hcopy
  exact hcopy

end

/-- Settles O23: the margins left and right, and above and below, are alike (`State.cropped_copies_centre`), and a window with no
margin is the frame. -/
theorem cropKeepsTheCentreAndCanCopyTheFrame : Obligations.CropKeepsTheCentreAndCanCopyTheFrame := by
  intro s hd hf hc
  refine ⟨s.cropped, execCrop_done hd hf hc, rfl, State.cropped_copies_centre hd hc, fun hcw hch => ?_⟩
  have hw := State.cropWidth_of_cropw_eq_zero hcw
  have hh := State.cropHeight_of_croph_eq_zero hch
  obtain ⟨hy, huv⟩ := s.frameOK_iff.1 hf
  rw [s.cropped_owidth, s.cropped_oheight, s.cropped_oylen, s.cropped_ouvlen, hw, hh]
  exact ⟨rfl, rfl, hy.symm, huv.symm, fun _ => State.cropped_copies_yin_of_no_crop hf hcw hch,
    fun _ => State.cropped_copies_uvin_of_no_crop hf hcw hch hd hc⟩

end Sys2Proof.Machine
end

section
/-! TORGB converts every pixel by the scaled formulas (43_torgb.md R180 to R191). -/

namespace Sys2Proof.Machine

/-! ### The range of the intermediates (43_torgb.md R183, R187) -/

theorem sample_range (b : Byte) : 0 ≤ sample b ∧ sample b ≤ 255 := by
  have hb := b.isLt
  rw [sample]
  omega

theorem chroma_range (b : Byte) : -128 ≤ chroma b ∧ chroma b ≤ 127 := by
  have hb := sample_range b
  rw [chroma]
  omega

theorem redNum_range (y v : Byte) : -179456000 ≤ redNum y v ∧ redNum y v ≤ 433054000 := by
  have hy := sample_range y
  have hv := chroma_range v
  rw [redNum]
  omega

theorem greenNum_range (y u v : Byte) : -134400544 ≤ greenNum y u v ∧ greenNum y u v ≤ 390458816 := by
  have hy := sample_range y
  have hu := chroma_range u
  have hv := chroma_range v
  rw [greenNum]
  omega

theorem blueNum_range (y u : Byte) : -226816000 ≤ blueNum y u ∧ blueNum y u ≤ 480044000 := by
  have hy := sample_range y
  have hu := chroma_range u
  rw [blueNum]
  omega

/-- The range of blue holds those of red and green. -/
theorem mem_colourNums_range {y u v : Byte} {n : Int} (hn : n ∈ [redNum y v, greenNum y u v, blueNum y u]) :
    -226816000 ≤ n ∧ n ≤ 480044000 := by
  have hr := redNum_range y v
  have hg := greenNum_range y u v
  simp only [List.mem_cons, List.not_mem_nil, or_false] at hn
  obtain rfl | rfl | rfl := hn
  · omega
  · omega
  · exact blueNum_range y u

/-- Settles O25: each range from those of a sample and an offset chroma sample, and the widths from the range of blue, the widest. -/
theorem colourIntermediatesLieInTheStatedRanges : Obligations.ColourIntermediatesLieInTheStatedRanges := by
  intro y u v
  refine ⟨redNum_range y v, greenNum_range y u v, blueNum_range y u, fun n hn => ?_⟩
  have hrange := mem_colourNums_range hn
  omega

/-! ### The clamp and the truncation (43_torgb.md R186) -/

/-- Settles O26: the three clauses are the three cases of the clamp in `channel_toNat`. -/
theorem channelIsClampedThenTruncated : Obligations.ChannelIsClampedThenTruncated := by
  intro n
  have hc := channel_toNat n
  refine ⟨fun hneg => BitVec.eq_of_toNat_eq ?below, fun hbig => BitVec.eq_of_toNat_eq ?above, fun h0 h255 => ?between⟩
  case below =>
    rw [BitVec.toNat_ofNat]
    omega
  case above =>
    rw [BitVec.toNat_ofNat]
    omega
  case between => omega

/-! ### Neutral chroma (43_torgb.md R189) -/

/-- A whole number of millionths within the range of a byte is kept, with no rounding. -/
theorem channel_scaled_sample (y : Byte) : channel (1000000 * sample y) = y := by
  have hc := channel_toNat (1000000 * sample y)
  rw [Int.mul_ediv_cancel_left _ (by decide)] at hc
  obtain ⟨h0, h255⟩ := sample_range y
  rw [min_eq_right h255, max_eq_right h0, sample] at hc
  exact BitVec.eq_of_toNat_eq (Int.ofNat_inj.1 hc)

@[simp] theorem chroma_neutral : chroma 128#8 = 0 := rfl

theorem redNum_neutral (y : Byte) : redNum y 128#8 = 1000000 * sample y := by simp [redNum]

theorem greenNum_neutral (y : Byte) : greenNum y 128#8 128#8 = 1000000 * sample y := by simp [greenNum]

theorem blueNum_neutral (y : Byte) : blueNum y 128#8 = 1000000 * sample y := by simp [blueNum]

/-- Settles O27: with neutral chroma every numerator is the scaled luma sample (`channel_scaled_sample`). -/
theorem neutralChromaGivesGrey : Obligations.NeutralChromaGivesGrey := by
  intro y
  rw [redNum_neutral, greenNum_neutral, blueNum_neutral]
  exact ⟨channel_scaled_sample y, channel_scaled_sample y, channel_scaled_sample y⟩

/-! ### Exact channel values (43_torgb.md R190) -/

theorem chroma_eq_iff {b : Byte} {k : Nat} (hk : k < 256) : chroma b = k - 128 ↔ b = BitVec.ofNat 8 k := by
  rw [← BitVec.toNat_inj, BitVec.toNat_ofNat, Nat.mod_eq_of_lt hk, chroma, sample]
  omega

/-- Where `m` is prime to `k` and divides `k * c`, it divides `c`, and 0 is the only such `c` less than `m` in size. -/
theorem eq_zero_of_dvd_coprime_mul {m k c : Int} (hmk : IsCoprime m k) (hdvd : m ∣ k * c) (hlow : -m < c) (hhigh : c < m) :
    c = 0 :=
  Int.eq_zero_of_abs_lt_dvd (hmk.dvd_of_dvd_mul_left hdvd) (abs_lt.2 ⟨hlow, hhigh⟩)

theorem redNum_exact_iff (y v : Byte) : redNum y v % 1000000 = 0 ↔ chroma v = 0 := by
  rw [redNum, Int.mul_add_emod_self_left]
  refine ⟨fun h => ?_, fun h => by rw [h]; rfl⟩
  have hdvd : 500 ∣ 701 * chroma v := by omega
  obtain ⟨hlow, hhigh⟩ := chroma_range v
  exact eq_zero_of_dvd_coprime_mul (by norm_num) hdvd (hlow.trans_lt' (by decide)) (hhigh.trans_lt (by decide))

theorem blueNum_exact_iff (y u : Byte) : blueNum y u % 1000000 = 0 ↔ chroma u = 0 := by
  rw [blueNum, Int.mul_add_emod_self_left]
  refine ⟨fun h => ?_, fun h => by rw [h]; rfl⟩
  have hdvd : 250 ∣ 443 * chroma u := by omega
  obtain ⟨hlow, hhigh⟩ := chroma_range u
  exact eq_zero_of_dvd_coprime_mul (by norm_num) hdvd (hlow.trans_lt' (by decide)) (hhigh.trans_lt (by decide))

/-- `nG` by the offset of U and the sum of the two offsets. -/
theorem greenNum_eq (y u v : Byte) :
    greenNum y u v = 1000000 * sample y + 370000 * chroma u - 714136 * (chroma u + chroma v) := by
  rw [greenNum]
  ring

/-- Modulo 10000 only the sum of the offsets counts in `nG`, and 0 is its only value that 1250 divides. -/
theorem chroma_opposite_of_greenNum_exact {y u v : Byte} (h : greenNum y u v % 1000000 = 0) :
    chroma v = -chroma u := by
  have hdvd : 1250 ∣ 89267 * (chroma u + chroma v) := by
    rw [greenNum_eq] at h
    omega
  obtain ⟨hulow, huhigh⟩ := chroma_range u
  obtain ⟨hvlow, hvhigh⟩ := chroma_range v
  have hsum := eq_zero_of_dvd_coprime_mul (by norm_num) hdvd ((add_le_add hulow hvlow).trans_lt' (by decide))
    ((add_le_add huhigh hvhigh).trans_lt (by decide))
  exact eq_neg_of_add_eq_zero_right hsum

/-- With opposite offsets `nG` is `370000 d`, up to whole units. -/
theorem greenNum_exact_iff_of_opposite {y u v : Byte} (h : chroma v = -chroma u) :
    greenNum y u v % 1000000 = 0 ↔ chroma u = 0 ∨ chroma u = -100 ∨ chroma u = 100 := by
  have hu := chroma_range u
  rw [greenNum_eq, h, add_neg_cancel, mul_zero, sub_zero, Int.mul_add_emod_self_left]
  omega

theorem greenNum_exact_iff (y u v : Byte) :
    greenNum y u v % 1000000 = 0 ↔
      chroma v = -chroma u ∧ (chroma u = 0 ∨ chroma u = -100 ∨ chroma u = 100) := by
  constructor
  · intro h
    have hopposite := chroma_opposite_of_greenNum_exact h
    exact ⟨hopposite, (greenNum_exact_iff_of_opposite hopposite).1 h⟩
  · rintro ⟨hopposite, hu⟩
    exact (greenNum_exact_iff_of_opposite hopposite).2 hu

/-- Settles O28: the offsets at which a channel is exact, as bytes (`chroma_eq_iff`). -/
theorem exactChannelValuesAreRare : Obligations.ExactChannelValuesAreRare := by
  intro y u v
  have h28 (b : Byte) : chroma b = -100 ↔ b = 28#8 := chroma_eq_iff (k := 28) (by decide)
  have h128 (b : Byte) : chroma b = 0 ↔ b = 128#8 := chroma_eq_iff (k := 128) (by decide)
  have h228 (b : Byte) : chroma b = 100 ↔ b = 228#8 := chroma_eq_iff (k := 228) (by decide)
  refine ⟨(redNum_exact_iff y v).trans (h128 v), (blueNum_exact_iff y u).trans (h128 u),
    (greenNum_exact_iff y u v).trans ?_⟩
  rw [← h28, ← h28, ← h128, ← h128, ← h228, ← h228]
  omega

/-! ### The converted pixels (43_torgb.md R180, R182) -/

/-- The bytes of a pixel whose three samples have been written. -/
theorem State.read_converted_pixel {s : State} {x y : Nat} (hx : x < s.width) (hy : y < s.height) {yv u v : Byte}
    (hyv : Memory.read s.yin (yaddr x y s.width) = some yv)
    (hu : Memory.read s.uvin (uaddr (x / 2) (y / 2) s.width) = some u)
    (hv : Memory.read s.uvin (vaddr (x / 2) (y / 2) s.width) = some v) :
    Memory.read s.converted.rgbout (rgbAddr x y 0 s.width) = some (channel (redNum yv v)) ∧
    Memory.read s.converted.rgbout (rgbAddr x y 1 s.width) = some (channel (greenNum yv u v)) ∧
    Memory.read s.converted.rgbout (rgbAddr x y 2 s.width) = some (channel (blueNum yv u)) :=
  read_torgb hx hy (State.load_of_written (b := .yin) hyv) (State.load_of_written (b := .uvin) hu)
    (State.load_of_written (b := .uvin) hv)

/-- Settles O7: the stores run through the new extent, the pixel's bytes are `State.read_converted_pixel`, and their values
`channel_toNat`. -/
theorem torgbCompletesWithTheConvertedPixels : Obligations.TorgbCompletesWithTheConvertedPixels := by
  intro s hw0 hh0 hw2 hh2 hylen huvlen
  have hd := s.dimsOK_iff.2 ⟨hw0, hh0, hw2, hh2⟩
  have hf := s.frameOK_iff.2 ⟨hylen, huvlen⟩
  refine ⟨s.converted, execTorgb_done hd hf, rfl, rfl, rfl, rfl, rfl, rfl, rfl,
    fun _ => s.converted_effect.rgbout.written, fun x y hx hy yv u v hyv hu hv => ?_⟩
  obtain ⟨hr, hg, hb⟩ := State.read_converted_pixel hx hy hyv hu hv
  exact ⟨_, _, _, hr, hg, hb, channel_toNat _, channel_toNat _, channel_toNat _⟩

end Sys2Proof.Machine
end

section
/-! The exceptions (60_exceptions.md): which error a write of CMD reports, what the error sequence changes, and that neither an error
nor an idle step leaves anything behind. -/

namespace Sys2Proof.Machine

/-! ### The first error that applies (60_exceptions.md R216) -/

theorem execCompress_err {s t : State} (h : execCompress s = .next t) :
    t.err = if ¬s.dimsOK = true then .invalidDimensions else if ¬s.dims3OK = true then .invalidDimensions
      else if ¬s.frameOK = true then .invalidFrameBuffer else .noError := by
  rcases execCompress_cases s with ⟨hd, hs⟩ | ⟨hd, h3, hs⟩ | ⟨hd, h3, hf, hs⟩ | ⟨hd, h3, hf, hs⟩
  all_goals obtain rfl := Host.Outcome.next.inj (hs.symm.trans h)
  · simp [hd]
  · simp [hd, h3]
  · simp [hd, h3, hf]
  · simp [hd, h3, hf]

theorem execCrop_err {s t : State} (h : execCrop s = .next t) :
    t.err = if ¬s.dimsOK = true then .invalidDimensions else if ¬s.frameOK = true then .invalidFrameBuffer
      else if ¬s.cropOK = true then .invalidCropParameters else .noError := by
  rcases execCrop_cases s with ⟨hd, hs⟩ | ⟨hd, hf, hs⟩ | ⟨hd, hf, hc, hs⟩ | ⟨hd, hf, hc, hs⟩
  all_goals obtain rfl := Host.Outcome.next.inj (hs.symm.trans h)
  · simp [hd]
  · simp [hd, hf]
  · simp [hd, hf, hc]
  · simp [hd, hf, hc]

theorem execTorgb_err {s t : State} (h : execTorgb s = .next t) :
    t.err = if ¬s.dimsOK = true then .invalidDimensions else if ¬s.frameOK = true then .invalidFrameBuffer
      else .noError := by
  rcases execTorgb_cases s with ⟨hd, hs⟩ | ⟨hd, hf, hs⟩ | ⟨hd, hf, hs⟩
  all_goals obtain rfl := Host.Outcome.next.inj (hs.symm.trans h)
  · simp [hd]
  · simp [hd, hf]
  · simp [hd, hf]

/-- STATUS after a command says whether ERR names an error (10_state.md R27, R28). -/
theorem State.CommandEnds.status_eq {w : Byte} {s t : State} (h : s.CommandEnds w t) :
    t.status = if t.err = .noError then .done else .error := by
  cases h with
  | rejected e he => exact (if_neg he).symm
  | compressed => rfl
  | cropped => rfl
  | converted => rfl

/-- The host's write of CMD leaves the operand registers, and with them every check. -/
theorem State.hostSetReg_cmd_checks (s : State) (rest : List HostOp) (v : Nat) :
    ((s.popped rest).hostSetReg .cmd v).dimsOK = s.dimsOK ∧ ((s.popped rest).hostSetReg .cmd v).dims3OK = s.dims3OK ∧
      ((s.popped rest).hostSetReg .cmd v).frameOK = s.frameOK ∧ ((s.popped rest).hostSetReg .cmd v).cropOK = s.cropOK :=
  ⟨rfl, rfl, rfl, rfl⟩

/-- Settles O8: an illegal word is rejected before any check (`runCommand_illegal`), and for each of the three commands ERR is the
first check that fails (`execCompress_err`, `execCrop_err`, `execTorgb_err`). -/
theorem firstApplicableErrorIsReported : Obligations.FirstApplicableErrorIsReported := by
  intro s v rest hs hv
  obtain ⟨t, ht, hends⟩ := runCommand_ends (BitVec.ofNat 8 v) ((s.popped rest).hostSetReg .cmd v)
  refine ⟨t, (step_writeCmd hs hv).trans ht, ?_, hends.status_eq⟩
  by_cases hlegal : v ≠ 0x01 ∧ v ≠ 0x02 ∧ v ≠ 0x03
  · obtain ⟨h1, h2, h3⟩ := hlegal
    rw [if_pos ⟨h1, h2, h3⟩]
    obtain rfl := Host.Outcome.next.inj ((runCommand_illegal (ofNat_ne_encode hv h1 h2 h3) _).symm.trans ht)
    rfl
  · obtain rfl | rfl | rfl : v = 0x01 ∨ v = 0x02 ∨ v = 0x03 := by omega
    · have herr := execCompress_err ((runCommand_legal .compress _).symm.trans ht)
      simpa [s.hostSetReg_cmd_checks, s.dimsOK_iff, s.dims3OK_iff, s.frameOK_iff] using herr
    · have herr := execCrop_err ((runCommand_legal .crop _).symm.trans ht)
      simpa [s.hostSetReg_cmd_checks, s.dimsOK_iff, s.frameOK_iff, s.cropOK_iff] using herr
    · have herr := execTorgb_err ((runCommand_legal .torgb _).symm.trans ht)
      simpa [s.hostSetReg_cmd_checks, s.dimsOK_iff, s.frameOK_iff] using herr

/-! ### The error sequence (60_exceptions.md R214) -/

/-- A step on a write of CMD that answers a next state ends as a command does. -/
theorem commandEnds_of_step {s t : State} {v : Nat} {rest : List HostOp} (hs : s.script = .writeReg 0 v :: rest)
    (h : step s = .next t) : ((s.popped rest).hostSetReg .cmd v).CommandEnds (BitVec.ofNat 8 v) t := by
  have hv := writeCmd_wf_iff.1 (wf_of_step_next hs h)
  obtain ⟨u, hu, hends⟩ := runCommand_ends (BitVec.ofNat 8 v) ((s.popped rest).hostSetReg .cmd v)
  obtain rfl := Host.Outcome.next.inj (((step_writeCmd hs hv).trans hu).symm.trans h)
  exact hends

/-- Only the error sequence ends with STATUS ERROR. -/
theorem State.CommandEnds.eq_raise {w : Byte} {s t : State} (h : s.CommandEnds w t) (ht : t.status = .error) :
    ∃ e, e ≠ .noError ∧ t = s.raise e := by
  cases h with
  | rejected e he => exact ⟨e, he, rfl⟩
  | compressed => exact Status.noConfusion ht
  | cropped => exact Status.noConfusion ht
  | converted => exact Status.noConfusion ht

theorem ErrCode.code_range {e : ErrCode} (he : e ≠ .noError) : 1 ≤ e.code.toNat ∧ e.code.toNat ≤ 4 := by
  cases e with
  | noError => exact absurd rfl he
  | invalidDimensions => decide
  | invalidCropParameters => decide
  | invalidFrameBuffer => decide
  | illegalCommand => decide

/-- Settles O9: the step ends with the error sequence (`State.CommandEnds.eq_raise`), run on the state whose CMD is the word written. -/
theorem errorSequenceChangesNothingElse : Obligations.ErrorSequenceChangesNothingElse := by
  intro s t v rest hs hstep herr
  obtain ⟨e, he, rfl⟩ := (commandEnds_of_step hs hstep).eq_raise herr
  obtain ⟨hlow, hhigh⟩ := ErrCode.code_range he
  exact ⟨rfl, hlow, hhigh, rfl⟩

/-! ### After an error, and with nothing to do (60_exceptions.md R219, R227) -/

theorem State.resetOf_dimsOK (c : Config) : (State.resetOf c).dimsOK = false := rfl

/-- Settles O10: a command looks at the operands only, so its checks decide in an error state as in any other (`execCompress_done`,
`execCrop_done`, `execTorgb_done`), and after reset the zero sides fail the first of them. -/
theorem errorIsNotSticky : Obligations.ErrorIsNotSticky := by
  refine ⟨fun s _ hw0 hh0 hw2 hh2 hy huv => ?_, fun i c => ?_⟩
  · have hd := s.dimsOK_iff.2 ⟨hw0, hh0, hw2, hh2⟩
    have hf := s.frameOK_iff.2 ⟨hy, huv⟩
    refine ⟨fun hw3 hh3 => ?_, fun hcw hch hcw2 hch2 => ?_, ?_⟩
    · exact ⟨_, execCompress_done hd (s.dims3OK_iff.2 ⟨hw3, hh3⟩) hf, rfl, rfl, rfl, rfl, rfl, rfl, rfl⟩
    · exact ⟨_, execCrop_done hd hf (s.cropOK_iff.2 ⟨hcw, hch, hcw2, hch2⟩), rfl, rfl, rfl, rfl, rfl, rfl, rfl⟩
    · exact ⟨_, execTorgb_done hd hf, rfl, rfl, rfl, rfl, rfl, rfl, rfl⟩
  · refine ⟨_, exec_of_dimsOK_eq_false (State.resetOf_dimsOK c) i, rfl, rfl, fun w h hw0 hh0 hw2 hh2 => ?_⟩
    have hd := (State.dimsOK_iff { (State.resetOf c).raise .invalidDimensions with
      width := w, height := h, ylen := w * h, uvlen := w * h / 2 }).2 ⟨hw0, hh0, hw2, hh2⟩
    exact ⟨_, execTorgb_done hd ((State.frameOK_iff _).2 ⟨rfl, rfl⟩), rfl, rfl, rfl⟩

/-- Settles O40: the idle case of a step (`step_idle`). -/
theorem idleBlockKeepsItsState : Obligations.IdleBlockKeepsItsState := fun _ => step_idle

end Sys2Proof.Machine
end

section
/-! Runs of host scripts, frames handed from one command to the next, and the reset event (70_reset_and_hazards.md R240, R248, R251,
R257). -/

namespace Sys2Proof.Machine

/-! ### Runs of a host script (70_reset_and_hazards.md R248, R257) -/

/-- A step only appends to what the host has read. -/
theorem State.StepsTo.returned_prefix {s t : State} (h : s.StepsTo t) : s.returned <+: t.returned := by
  cases h with
  | idle => exact List.prefix_rfl
  | command _ _ ht => rw [ht.effect.inputs.returned]; exact List.prefix_rfl
  | @writeReg r => cases r <;> exact List.prefix_rfl
  | writeAbsent => exact List.prefix_rfl
  | readReg => exact List.prefix_append _ _
  | @writeMem b => cases b <;> exact List.prefix_rfl
  | readMem => exact List.prefix_append _ _
  | reset => exact List.prefix_rfl

/-- From `s`, the host has done `k` of its operations in `t`: the others are left and can be carried, the parameter is the same, and
what was read before is kept. -/
structure State.HostAdvances (k : Nat) (s t : State) : Prop where
  scriptOK : t.ScriptOK
  script : t.script = s.script.drop k
  cfg : t.cfg = s.cfg
  returned : s.returned <+: t.returned

theorem State.HostAdvances.zero {s : State} (h : s.ScriptOK) : s.HostAdvances 0 s := ⟨h, rfl, rfl, List.prefix_rfl⟩

theorem State.HostAdvances.trans {j k : Nat} {s t u : State} (h : s.HostAdvances j t) (h' : t.HostAdvances k u) :
    s.HostAdvances (j + k) u where
  scriptOK := h'.scriptOK
  script := by rw [h'.script, h.script, List.drop_drop]
  cfg := h'.cfg.trans h.cfg
  returned := h.returned.trans h'.returned

theorem scriptWf_cons {c : Config} {op : HostOp} {rest : List HostOp} :
    scriptWf c (op :: rest) = true ↔ op.wf c = true ∧ scriptWf c rest = true := by simp [scriptWf]

/-- With a script that the ports can carry no step stops: it does the next operation, or nothing once none is left. -/
theorem step_hostAdvances {s : State} (h : s.ScriptOK) : ∃ t, step s = .next t ∧ s.HostAdvances 1 t := by
  cases hs : s.script with
  | nil => exact ⟨s, step_idle hs, h, by rw [hs, List.drop_nil], rfl, List.prefix_rfl⟩
  | cons op rest =>
    obtain ⟨hop, hrest⟩ := scriptWf_cons.1 (hs ▸ h : scriptWf s.cfg (op :: rest) = true)
    obtain ⟨t, ht, hsteps⟩ := step_of_wf hs hop
    obtain ⟨hscript, hcfg⟩ := hsteps.script_cfg hs
    refine ⟨t, ht, ?_, by rw [hs, hscript, List.drop_one, List.tail_cons], hcfg, hsteps.returned_prefix⟩
    rwa [State.ScriptOK, hscript, hcfg]

/-- A run is its first step, then the rest. -/
theorem run_hostAdvances (k : Nat) {s : State} (h : s.ScriptOK) :
    ∃ t, Sys2Proof.core.run k s = .next t ∧ s.HostAdvances k t := by
  induction k generalizing s with
  | zero => exact ⟨s, rfl, .zero h⟩
  | succ k ih =>
    obtain ⟨t, ht, hst⟩ := step_hostAdvances h
    obtain ⟨u, hu, htu⟩ := ih hst.scriptOK
    exact ⟨u, (Laws.run_succ Sys2Proof.core k ht).trans hu, Nat.add_comm 1 k ▸ hst.trans htu⟩

/-- Settles O39, by induction on the number of steps (`run_hostAdvances`). -/
theorem hostScriptsRunToTheirEnd : Obligations.HostScriptsRunToTheirEnd := by
  intro k s h
  obtain ⟨t, ht, hadv⟩ := run_hostAdvances k h
  exact ⟨t, ht, hadv.scriptOK, hadv.script, hadv.cfg, hadv.returned⟩

/-! ### Output frames as input frames (70_reset_and_hazards.md R251) -/

theorem State.compressed_frameOutput {s : State} (hd : s.dimsOK = true) (h3 : s.dims3OK = true) :
    s.compressed.FrameOutput := by
  obtain ⟨-, -, hw0, hh0, hw2, hh2⟩ := State.compress_sides hd h3
  exact ⟨hw0, hh0, hw2, hh2, rfl, rfl, rfl⟩

theorem State.cropped_frameOutput {s : State} (hd : s.dimsOK = true) (hc : s.cropOK = true) : s.cropped.FrameOutput := by
  obtain ⟨-, -, hw0, hh0, hw2, hh2⟩ := State.crop_sides hd hc
  exact ⟨hw0, hh0, hw2, hh2, rfl, rfl, rfl⟩

/-- What COMPRESS or CROP leaves when it ends DONE is a conforming frame (41_compress.md R141, 42_crop.md R162). -/
theorem frameOutput_of_exec_done {i : Instr} {s t : State} (hi : i = .compress ∨ i = .crop) (h : exec i s = .next t)
    (hdone : t.status = .done) : t.FrameOutput := by
  obtain ⟨u, hu, hends⟩ := exec_ends i s
  obtain rfl := Host.Outcome.next.inj (h.symm.trans hu)
  cases hends with
  | rejected => exact Status.noConfusion hdone
  | compressed _ hd h3 => exact State.compressed_frameOutput hd h3
  | cropped _ hd hc => exact State.cropped_frameOutput hd hc
  | converted hw => rcases hi with rfl | rfl <;> exact absurd hw (by decide)

/-- Operands copied from a conforming output frame pass the checks on the sides and on the lengths. -/
theorem State.FrameOutput.checks {t u : State} (h : t.FrameOutput) (hw : u.width = t.owidth) (hh : u.height = t.oheight)
    (hy : u.ylen = t.oylen) (huv : u.uvlen = t.ouvlen) : u.dimsOK = true ∧ u.frameOK = true := by
  obtain ⟨hw0, hh0, hw2, hh2, hylen, huvlen, -⟩ := h
  rw [u.dimsOK_iff, u.frameOK_iff, hw, hh, hy, huv]
  exact ⟨⟨hw0, hh0, hw2, hh2⟩, hylen, huvlen⟩

/-- A crop by nothing is legal on every frame (42_crop.md R161). -/
theorem State.cropOK_of_no_crop {s : State} (hd : s.dimsOK = true) (hcw : s.cropw = 0) (hch : s.croph = 0) :
    s.cropOK = true := by
  obtain ⟨hw0, hh0, -, -⟩ := s.dimsOK_iff.1 hd
  rw [s.cropOK_iff, hcw, hch]
  exact ⟨hw0, hh0, rfl, rfl⟩

/-- Settles O24: the operands are those of a conforming frame (`frameOutput_of_exec_done`), which passes the checks of both commands. -/
theorem outputFramesCanBeChained : Obligations.OutputFramesCanBeChained := by
  intro i s t u hi hexec hdone hw hh hy huv
  obtain ⟨hd, hf⟩ := (frameOutput_of_exec_done hi hexec hdone).checks hw hh hy huv
  exact ⟨⟨_, execTorgb_done hd hf, rfl⟩, fun hcw hch => ⟨_, execCrop_done hd hf (State.cropOK_of_no_crop hd hcw hch), rfl⟩⟩

/-! ### The reset event (70_reset_and_hazards.md R240) -/

/-- The reset event leaves the registers of the state right after reset. -/
theorem State.resetEvent_readReg (s : State) : s.resetEvent.readReg = (State.resetOf s.cfg).readReg := rfl

/-- The reset event leaves the buffers of the state right after reset. -/
theorem State.resetEvent_buffer (s : State) : s.resetEvent.buffer = (State.resetOf s.cfg).buffer := rfl

theorem step_reset {s : State} {rest : List HostOp} (hs : s.script = .reset :: rest) :
    step s = .next (s.popped rest).resetEvent := step_wf hs rfl

/-- Settles O35: the registers and buffers are those of the state right after reset, for the same parameter. -/
theorem resetEventClearsTheBlock : Obligations.ResetEventClearsTheBlock := by
  intro s rest hs
  refine ⟨_, step_reset hs, fun r => ?_, fun b a => ?_, rfl, rfl, rfl, rfl⟩
  · rw [State.resetEvent_readReg, State.resetOf_readReg]
  · rw [State.resetEvent_buffer, State.resetOf_buffer, Memory.read]

end Sys2Proof.Machine
end
